-- ==== Sys2Proof/Config.lean ====
section
/-! DEFINITION. What an implementation fixes, and the free values: constants with no body, so that nothing can be
proved of their values. -/

namespace Sys2Proof

/-- The free bytes of buffers whose contents the spec leaves unspecified ("`any value`", 93_implementation_defined.md
U1; 10_state.md R37), numbered by the counter `State.freeNext`. DESIGN CHOICE (log entry 8); safe: nothing is known of
them. -/
opaque Config.freeByte (n : Nat) : BitVec 8

/-- How many engines a platform has beyond the first: the open parameter `ENGINE_COUNT` less one (00_scope.md R8,
92_eei_decisions.md D17). -/
opaque Config.extraEngines : Nat

/-- `ENGINE_COUNT`, "a natural number, at least 1" (00_scope.md R8). -/
def Config.engineCount : Nat := Config.extraEngines + 1

end Sys2Proof
end

