-- ==== Sys2Proof/Word.lean ====
section
/-! DEFINITION. Words, bytes and the two output widths of the BLAKE-256/224 engine (00_scope.md R2, R7, R9). -/

namespace Sys2Proof

/-- A 32-bit unsigned word (R7). -/
abbrev Word := BitVec 32

/-- A byte (R9). -/
abbrev Byte := BitVec 8

/-- The 64-bit bit counter `t = t1:t0` (R7, R11). -/
abbrev Counter := BitVec 64

/-- The chain value `h[0..7]` (R22). -/
abbrev Chain := Vector Word 8

/-- The salt `s[0..3]` (R23). -/
abbrev Salt := Vector Word 4

/-- The working vector `v[0..15]` (R31), the message words `m[0..15]` (R32) and the table `C[0..15]` (R33). -/
abbrev Vec16 := Vector Word 16

/-- 64 bytes: a block, or the buffer `x[0..63]` (R7, R26). -/
abbrev Block := Vector Byte 64

/-- The output width `W`, "one of {224, 256}" (R28). -/
inductive Width where
  | w224
  | w256
  deriving DecidableEq, Repr

/-- The width in bits, 224 or 256. -/
def Width.bits : Width → Nat
  | .w224 => 224
  | .w256 => 256

end Sys2Proof
end

