-- ==== Sys2Proof/Syntax.lean ====
section
/-! DEFINITION. The commands of the engine: one constructor for each row of spec/opcode_table.json (30_encoding.md
R75). The data bytes of NEWS and WRITE are not part of the command word: they arrive on the data-in port (R70). -/

namespace Sys2Proof

/-- A command (R75). `w` is the width the W224 bit selects (R72), `len` the LEN field, a byte count (R74). -/
inductive Instr where
  | new (w : Width)
  | news (w : Width) (len : Nat)
  | write (len : Nat)
  | sum
  | reset
  | blocksize
  | size
  deriving DecidableEq, Repr

end Sys2Proof
end

