-- ==== Sys2Proof/WellFormed.lean ====
section
/-! DEFINITION. Which commands a command word can carry: LEN is a 24-bit byte count (30_encoding.md R74). -/

namespace Sys2Proof

/-- The LEN field holds 0 to 2^24 - 1 (R74). -/
def lenFits (len : Nat) : Bool := decide (len < 2 ^ 24)

/-- A command that some command word encodes. A NEWS with a salt of the wrong length is well formed: it can be
presented, and faults when it runs (R74, R221). -/
def Instr.wellFormed : Instr → Bool
  | .new _ => true
  | .news _ len => lenFits len
  | .write len => lenFits len
  | .sum => true
  | .reset => true
  | .blocksize => true
  | .size => true

end Sys2Proof
end

