-- ==== Sys2Proof/Decode.lean ====
section
/-! DEFINITION. The command word CMD32: its fields, the decoder and the encoder (30_encoding.md R71 to R79). -/

namespace Sys2Proof

/-- Field OPC, bits 3:0 (R71). -/
def fieldOpc (word : Word) : BitVec 4 := word.extractLsb' 0 4

/-- Field W224, bit 4 (R71, R72). -/
def fieldW224 (word : Word) : Bool := word.getLsbD 4

/-- Field SP, bit 5 (R71, R73). -/
def fieldSp (word : Word) : Bool := word.getLsbD 5

/-- Field RSV, bits 7:6 (R71). -/
def fieldRsv (word : Word) : BitVec 2 := word.extractLsb' 6 2

/-- Field LEN, bits 31:8, an unsigned byte count, not scaled (R71, R74). -/
def fieldLen (word : Word) : Nat := (word.extractLsb' 8 24).toNat

/-- Bits 31:4: every field but OPC (R78). -/
def fieldHigh (word : Word) : BitVec 28 := word.extractLsb' 4 28

/-- W224 = 1 is 224, W224 = 0 is 256 (R72). -/
def widthOfBit (w224 : Bool) : Width := if w224 then .w224 else .w256

/-- The W224 bit of a width (R72). -/
def bitOfWidth : Width → Bool
  | .w224 => true
  | .w256 => false

/-- Why a word is no command (R78). The names are the model's own; the engine answers all of them with the one status
IllegalCommand. -/
inductive IllegalWord where
  /-- OPC in 0x6..0xF. -/
  | reservedOpcode
  /-- RSV is not 0. -/
  | reservedBits
  /-- OPC = 0x0 with SP = 0 and LEN not 0. -/
  | newWithLength
  /-- OPC = 0x1 with W224 or SP not 0. -/
  | writeWithWidthOrSalt
  /-- OPC in 0x2..0x5 with a bit of 31:4 not 0. -/
  | unusedField
  deriving DecidableEq, Repr

/-- A command without operands: every bit above OPC is 0, or the word is illegal (R79). -/
def decodeBare (word : Word) (i : Instr) : Except IllegalWord Instr :=
  if fieldHigh word = 0 then .ok i else .error .unusedField

/-- The decode procedure, total on every word (R79). -/
def decode (word : Word) : Except IllegalWord Instr :=
  if fieldRsv word ≠ 0 then .error .reservedBits
  else if fieldOpc word = 0x0 then
    if fieldSp word then .ok (.news (widthOfBit (fieldW224 word)) (fieldLen word))
    else if fieldLen word = 0 then .ok (.new (widthOfBit (fieldW224 word)))
    else .error .newWithLength
  else if fieldOpc word = 0x1 then
    if fieldW224 word || fieldSp word then .error .writeWithWidthOrSalt
    else .ok (.write (fieldLen word))
  else if fieldOpc word = 0x2 then decodeBare word .sum
  else if fieldOpc word = 0x3 then decodeBare word .reset
  else if fieldOpc word = 0x4 then decodeBare word .blocksize
  else if fieldOpc word = 0x5 then decodeBare word .size
  else .error .reservedOpcode

/-- A command word from its fields, RSV = 0 (R71). -/
def packWord (opc : BitVec 4) (w224 sp : Bool) (len : Nat) : Word :=
  (BitVec.ofNat 32 len <<< 8) ||| ((BitVec.ofBool sp).setWidth 32 <<< 5) |||
    ((BitVec.ofBool w224).setWidth 32 <<< 4) ||| opc.setWidth 32

/-- The opcode of a command (R75). -/
def Instr.opcode : Instr → BitVec 4
  | .new _ => 0x0
  | .news _ _ => 0x0
  | .write _ => 0x1
  | .sum => 0x2
  | .reset => 0x3
  | .blocksize => 0x4
  | .size => 0x5

/-- The command word of a well-formed command (R71, R75). -/
def encode : Instr → Word
  | .new w => packWord (Instr.new w).opcode (bitOfWidth w) false 0
  | .news w len => packWord (Instr.news w len).opcode (bitOfWidth w) true len
  | .write len => packWord (Instr.write len).opcode false false len
  | .sum => packWord Instr.sum.opcode false false 0
  | .reset => packWord Instr.reset.opcode false false 0
  | .blocksize => packWord Instr.blocksize.opcode false false 0
  | .size => packWord Instr.size.opcode false false 0

/-- The mask column of the opcode map (R75). -/
def Instr.rowMask : Instr → Word
  | .new _ => 0xFFFFFFEF
  | .news _ _ => 0x000000EF
  | .write _ => 0x000000FF
  | .sum => 0xFFFFFFFF
  | .reset => 0xFFFFFFFF
  | .blocksize => 0xFFFFFFFF
  | .size => 0xFFFFFFFF

/-- The match column of the opcode map (R75). -/
def Instr.rowMatch : Instr → Word
  | .new _ => 0x00000000
  | .news _ _ => 0x00000020
  | .write _ => 0x00000001
  | .sum => 0x00000002
  | .reset => 0x00000003
  | .blocksize => 0x00000004
  | .size => 0x00000005

/-- How many data bytes follow the command word: LEN for NEWS and WRITE, none for every other command (R70). -/
def Instr.dataLen : Instr → Nat
  | .new _ => 0
  | .news _ len => len
  | .write len => len
  | .sum => 0
  | .reset => 0
  | .blocksize => 0
  | .size => 0

/-- How many data bytes a command word announces: those of its command, none for an illegal word (R70, R78). -/
def announced (word : Word) : Nat :=
  match decode word with
  | .ok i => i.dataLen
  | .error _ => 0

/-- The command word of an instruction numbered as spec/opcode_table.json numbers it: its first 32 bits. -/
def tableWord (nbits w : Nat) : Word := BitVec.ofNat 32 (w % 2 ^ nbits)

/-- The data bytes of such an instruction: the bits above the command word, a byte each, as many as the word
announces (a command's length is 4 + LEN bytes, R70); bits the number does not give are 0. -/
def tableData (nbits w : Nat) : List Byte :=
  (List.range (announced (tableWord nbits w))).map fun k => BitVec.ofNat 8 ((w % 2 ^ nbits) >>> (32 + 8 * k))

/-- The instruction the decoder reads from an instruction whose bits are `w`. -/
def decodeTableWord (nbits w : Nat) : Option Instr := (decode (tableWord nbits w)).toOption

end Sys2Proof
end

