-- ==== Sys2Proof/Machine/Operands.lean ====
section
/-! DEFINITION. Operand forms: byte order, the halves of the counter, rotation, blocks and salts from bytes
(00_scope.md R10 to R12, 20_memory.md R52). -/

namespace Sys2Proof.Machine

/-- `rotr(x, n)` for 0 < n < 32: both shifts logical, truncated to 32 bits (R10). -/
def rotr (x : Word) (n : Nat) : Word := (x >>> n) ||| (x <<< (32 - n))

/-- `be32(b0, b1, b2, b3)`: the first byte is the most significant (R12). -/
def be32 (b0 b1 b2 b3 : Byte) : Word :=
  (b0.setWidth 32 <<< 24) ||| (b1.setWidth 32 <<< 16) ||| (b2.setWidth 32 <<< 8) ||| b3.setWidth 32

/-- `bytes_be32(w)`: `w[31:24], w[23:16], w[15:8], w[7:0]` (R12). -/
def bytesBe32 (w : Word) : List Byte :=
  [w.extractLsb' 24 8, w.extractLsb' 16 8, w.extractLsb' 8 8, w.extractLsb' 0 8]

/-- `lo32(t) = t0`, bits 31:0 of the counter (R11, R24). -/
def lo32 (t : Counter) : Word := t.extractLsb' 0 32

/-- `hi32(t) = t1`, bits 63:32 of the counter (R11, R24). -/
def hi32 (t : Counter) : Word := t.extractLsb' 32 32

/-- `bytes_be64(L)`: `bytes_be32(hi32(L))`, then `bytes_be32(lo32(L))` (R12, R52 item 2). -/
def bytesBe64 (l : Counter) : List Byte := bytesBe32 (hi32 l) ++ bytesBe32 (lo32 l)

/-- The message words of a block, `m[i] = be32(b[4i], b[4i+1], b[4i+2], b[4i+3])` (R52 item 1, R104). -/
def parseBlock (b : Block) : Vec16 :=
  Vector.ofFn fun i : Fin 16 => be32 (b[4 * i.val]) (b[4 * i.val + 1]) (b[4 * i.val + 2]) (b[4 * i.val + 3])

/-- The salt words of the 16 salt bytes in the order received, `s[i] = be32(salt[4i..4i+3])` (R23, R52 item 4, D10). It
is applied to exactly 16 bytes. -/
def saltOfBytes (bytes : List Byte) : Salt :=
  Vector.ofFn fun i : Fin 4 =>
    be32 (bytes.getD (4 * i.val) 0) (bytes.getD (4 * i.val + 1) 0) (bytes.getD (4 * i.val + 2) 0)
      (bytes.getD (4 * i.val + 3) 0)

/-- Size of the digest in bytes, W/8: 28 or 32 (R7, R159). -/
def digestBytes (w : Width) : Nat := w.bits / 8

/-- Number of chain words in the digest, W/32: 7 or 8 (R190, R197). -/
def digestWords (w : Width) : Nat := w.bits / 32

/-- The digest of a chain value: its first W/32 words, big-endian (R197). -/
def digestOf (w : Width) (h : Chain) : List Byte := (h.toList.take (digestWords w)).flatMap bytesBe32

/-- The domain byte: 0x00 for W = 224, 0x01 for W = 256 (R195). -/
def domainByte : Width → Byte
  | .w224 => 0x00
  | .w256 => 0x01

/-- The single padding byte of the case n = 55: 0x80 for W = 224, 0x81 for W = 256 (R192, 90_conflicts.md C2; log
entry 12). -/
def foldedByte : Width → Byte
  | .w224 => 0x80
  | .w256 => 0x81

end Sys2Proof.Machine
end

