-- ==== Sys2Proof/Machine/State.lean ====
section
/-! DEFINITION. The state of one engine with its four ports, the reasons a step can stop, and the state right after
power-on reset (10_state.md R20 to R37, 92_eei_decisions.md D2). -/

namespace Sys2Proof.Machine

/-- The status of a response (30_encoding.md R76): four codes, no other is ever produced. -/
inductive Status where
  | ok
  | invalidSaltLength
  | illegalCommand
  | unconfigured
  deriving DecidableEq, Repr

/-- A response: a status (8 bits on the port, `Status.code`) and a 32-bit value (R13, R30, R77). -/
structure Response where
  status : Status
  value : Word
  deriving DecidableEq, Repr

/-- The persistent architectural state of one engine, the tuple `S` of 10_state.md R20. SUM's snapshot (R35) is a value
of this type too. -/
structure Engine where
  /-- Configured by NEW or NEWS (R29). -/
  cfg : Bool
  /-- Output width of the session (R28). -/
  w : Width
  /-- Chain value (R22). -/
  h : Chain
  /-- Salt words `s` (R23). -/
  salt : Salt
  /-- Bits of message compressed so far (R24); its halves are `lo32 t` and `hi32 t`. -/
  t : Counter
  /-- Block buffer (R26); only the first `nx` bytes are specified. -/
  x : Block
  /-- Number of valid bytes in `x`, 0 to 64 (R20, R26). -/
  nx : Fin 65
  /-- Suppress counter injection in the next compression (R27). -/
  nullt : Bool
  deriving DecidableEq, Repr

/-- One engine and its ports. Engine registers: R20. Ports: 92_eei_decisions.md D2, 20_memory.md R55 (log entry 3). -/
structure State where
  /-- The architectural state S. -/
  eng : Engine
  /-- Command-in port: the word on the port first, then the words the host presents after it (R57, R70). -/
  cmdIn : List Word
  /-- Data-in port: the bytes the host has delivered and no command has taken, next one first (R53). -/
  dataIn : List Byte
  /-- Data-out port: every byte emitted since power-on, oldest first (R13, R17). -/
  dataOut : List Byte
  /-- Response port: every response since power-on, oldest first (R13, R17). -/
  resps : List Response
  /-- The MODEL'S OWN field, an input pin: the host accepts data-out bytes (R254 item 4, R258). Log entry 7. -/
  outReady : Bool
  /-- The MODEL'S OWN field: the number of the next free byte (U1). Log entry 8. -/
  freeNext : Nat
  deriving DecidableEq, Repr

/-- Reasons the machine stops with a fault. The spec's own faults are responses, not stops (60_exceptions.md R226, R227,
log entry 1). -/
inductive Fault where
  /-- Raised by WRITE and SUM when `nx = 64` between commands: the next byte would go to `x[64]`, which does not exist
  (R20, R26). Safe: R26 rules such a state out and no run reaches one. Log entry 9. -/
  | bufferOverrun
  deriving DecidableEq, Repr

/-- Reasons a step has no meaning. -/
inductive Refusal where
  /-- An instruction whose meaning is not written yet: raised by no arm of this model. Safe. -/
  | notModelled (mnemonic : String)
  /-- Raised by the step when data-in holds bytes and no command is presented: "`refuse`: the model has no transition
  for it" (93_implementation_defined.md U6). Safe. Log entry 6. -/
  | surplusData
  /-- Raised by a platform's step for an engine number the platform does not have (60_exceptions.md R234). Safe. -/
  | noSuchEngine
  deriving DecidableEq, Repr

/-- What a command's meaning answers. -/
abbrev Result := Host.Outcome State Fault Refusal

/-- The engine right after power-on: `cfg = 0` (R250); every other field "holds no value" there, so each is a value of
the model's choosing. DESIGN CHOICE (log entry 2); unsafe. -/
def Engine.powerOn : Engine where
  cfg := false
  w := .w256
  h := Vector.replicate 8 0
  salt := Vector.replicate 4 0
  t := 0
  x := Vector.replicate 64 0
  nx := 0
  nullt := false

/-- The machine right after power-on reset: unconfigured, waiting for its first command word (R250). -/
def State.reset : State where
  eng := Engine.powerOn
  cmdIn := []
  dataIn := []
  dataOut := []
  resps := []
  outReady := true
  freeNext := 0

end Sys2Proof.Machine
end

