-- ==== Sys2Proof/Machine/Flags.lean ====
section
/-! DEFINITION. What the flags decide: the no-counter flag and the counter words it suppresses (40_compression.md R105),
the status codes (30_encoding.md R76). -/

namespace Sys2Proof.Machine

/-- The 8-bit code of a status (R76). -/
def Status.code : Status → BitVec 8
  | .ok => 0x00
  | .invalidSaltLength => 0x01
  | .illegalCommand => 0x02
  | .unconfigured => 0x03

/-- The words injected into `v[12..15]`: t0, t0, t1, t1, or nothing when the no-counter flag is set (R27, R105). -/
def injectedWords (t : Counter) (nc : Bool) : Vector Word 4 :=
  if nc then #v[0, 0, 0, 0] else #v[lo32 t, lo32 t, hi32 t, hi32 t]

end Sys2Proof.Machine
end

