-- ==== Sys2Proof/Machine/Tables.lean ====
section
/-! DEFINITION. The constant stores (10_state.md R33; 40_compression.md R100 to R103, R107). The source names these
tables and gives no values; the spec supplies them [from general knowledge]: log entry 11. -/

namespace Sys2Proof.Machine

/-- Constant table `C[0..15]` (R100). -/
def constC : Vec16 := #v[
  0x243F6A88, 0x85A308D3, 0x13198A2E, 0x03707344,
  0xA4093822, 0x299F31D0, 0x082EFA98, 0xEC4E6C89,
  0x452821E6, 0x38D01377, 0xBE5466CF, 0x34E90C6C,
  0xC0AC29B7, 0xC97C50DD, 0x3F84D5B5, 0xB5470917]

/-- Initial chain value for W = 256 (R101). -/
def iv256 : Chain := #v[
  0x6A09E667, 0xBB67AE85, 0x3C6EF372, 0xA54FF53A,
  0x510E527F, 0x9B05688C, 0x1F83D9AB, 0x5BE0CD19]

/-- Initial chain value for W = 224 (R101). -/
def iv224 : Chain := #v[
  0xC1059ED8, 0x367CD507, 0x3070DD17, 0xF70E5939,
  0xFFC00B31, 0x68581511, 0x64F98FA7, 0xBEFA4FA4]

/-- The initial chain value of a width (R22, R101). -/
def iv : Width → Chain
  | .w224 => iv224
  | .w256 => iv256

/-- Permutation table `SIGMA[0..9][0..15]` (R102). -/
def sigma : Vector (Vector (Fin 16) 16) 10 := #v[
  #v[0, 1, 2, 3, 4, 5, 6, 7, 8, 9, 10, 11, 12, 13, 14, 15],
  #v[14, 10, 4, 8, 9, 15, 13, 6, 1, 12, 0, 2, 11, 7, 5, 3],
  #v[11, 8, 12, 0, 5, 2, 15, 13, 10, 14, 3, 6, 7, 1, 9, 4],
  #v[7, 9, 3, 1, 13, 12, 11, 14, 2, 6, 5, 10, 4, 0, 15, 8],
  #v[9, 0, 5, 7, 2, 4, 10, 15, 14, 1, 11, 12, 6, 8, 3, 13],
  #v[2, 12, 6, 10, 0, 11, 8, 3, 4, 13, 7, 5, 15, 14, 1, 9],
  #v[12, 5, 1, 15, 14, 13, 4, 10, 0, 7, 6, 3, 9, 2, 8, 11],
  #v[13, 11, 7, 14, 12, 1, 3, 9, 5, 0, 15, 4, 8, 6, 2, 10],
  #v[6, 15, 14, 9, 11, 3, 0, 8, 12, 2, 13, 7, 1, 4, 10, 5],
  #v[10, 2, 8, 4, 7, 6, 1, 5, 15, 11, 9, 14, 3, 12, 13, 0]]

/-- The permutation of round `r`: `SIGMA[r mod 10]` (R103). -/
def roundPerm (r : Nat) : Vector (Fin 16) 16 := sigma[r % 10]'(Nat.mod_lt r (by decide))

/-- The four state-word indices of one G application (R107). -/
structure GQuad where
  a : Fin 16
  b : Fin 16
  c : Fin 16
  d : Fin 16
  deriving DecidableEq, Repr

/-- `GIDX[0..7]`: the four columns, then the four diagonals (R107). -/
def gIdx : Vector GQuad 8 := #v[
  ⟨0, 4, 8, 12⟩, ⟨1, 5, 9, 13⟩, ⟨2, 6, 10, 14⟩, ⟨3, 7, 11, 15⟩,
  ⟨0, 5, 10, 15⟩, ⟨1, 6, 11, 12⟩, ⟨2, 7, 8, 13⟩, ⟨3, 4, 9, 14⟩]

end Sys2Proof.Machine
end

