-- ==== Sys2Proof/Machine/Compress.lean ====
section
/-! DEFINITION. The compression core, a pure function with no error condition (40_compression.md R104 to R112). -/

namespace Sys2Proof.Machine

/-- The four state words of one G application. -/
structure GWords where
  a : Word
  b : Word
  c : Word
  d : Word
  deriving DecidableEq, Repr

/-- The G transform on four words (R106). `mx`, `my` are `m[x]`, `m[y]` and `cx`, `cy` are `C[x]`, `C[y]`: the message
word x goes with the constant y, and the message word y with the constant x. -/
def gMix (q : GWords) (mx my cx cy : Word) : GWords :=
  let a := q.a + q.b + (mx ^^^ cy)
  let d := rotr (q.d ^^^ a) 16
  let c := q.c + d
  let b := rotr (q.b ^^^ c) 12
  let a' := a + b + (my ^^^ cx)
  let d' := rotr (d ^^^ a') 8
  let c' := c + d'
  let b' := rotr (b ^^^ c') 7
  ⟨a', b', c', d'⟩

/-- The four words of `v` a quadruple names. -/
def gRead (v : Vec16) (q : GQuad) : GWords := ⟨v[q.a], v[q.b], v[q.c], v[q.d]⟩

/-- Writing the four words back. -/
def gWrite (v : Vec16) (q : GQuad) (r : GWords) : Vec16 :=
  (((v.set q.a r.a).set q.b r.b).set q.c r.c).set q.d r.d

/-- `G_i` of a round with permutation `perm`: `x = perm[2i]`, `y = perm[2i+1]` (R107). -/
def gApply (m : Vec16) (perm : Vector (Fin 16) 16) (v : Vec16) (i : Fin 8) : Vec16 :=
  let x := perm[2 * i.val]
  let y := perm[2 * i.val + 1]
  gWrite v gIdx[i] (gMix (gRead v gIdx[i]) m[x] m[y] constC[x] constC[y])

/-- One round: `G_0` to `G_3` on the columns, then `G_4` to `G_7` on the diagonals (R108). -/
def coreRound (m : Vec16) (v : Vec16) (r : Nat) : Vec16 :=
  (List.finRange 8).foldl (gApply m (roundPerm r)) v

/-- The round schedule, r = 0 to 13 (R109). -/
def coreRounds (m v : Vec16) : Vec16 := (List.range 14).foldl (coreRound m) v

/-- The working vector at the start of a compression (R105). -/
def initVector (h : Chain) (s : Salt) (t : Counter) (nc : Bool) : Vec16 :=
  let inj := injectedWords t nc
  #v[h[0], h[1], h[2], h[3], h[4], h[5], h[6], h[7],
     s[0] ^^^ constC[0], s[1] ^^^ constC[1], s[2] ^^^ constC[2], s[3] ^^^ constC[3],
     constC[4] ^^^ inj[0], constC[5] ^^^ inj[1], constC[6] ^^^ inj[2], constC[7] ^^^ inj[3]]

/-- The feed-forward, `h'[i] = h[i] ^ v[i] ^ v[i+8] ^ s[i mod 4]` (R110). -/
def feedForward (h : Chain) (v : Vec16) (s : Salt) : Chain :=
  Vector.ofFn fun i : Fin 8 =>
    h[i.val] ^^^ v[i.val] ^^^ v[i.val + 8] ^^^ s[i.val % 4]'(Nat.mod_lt _ (by decide))

/-- COMPRESS (R111). -/
def compress (h : Chain) (s : Salt) (t : Counter) (nc : Bool) (b : Block) : Chain :=
  feedForward h (coreRounds (parseBlock b) (initVector h s t nc)) s

end Sys2Proof.Machine
end

