-- ==== Sys2Proof/Machine/Ops.lean ====
section
/-! DEFINITION. The shared operations of the commands: BLOCK and ABSORB on an engine (41_stream.md R151, R152), the
response that ends a command (00_scope.md R13), taking a fault (60_exceptions.md R226), data-in (R13, R150), opening and
restarting a session (R155 to R157), and what the host does to the ports. -/

namespace Sys2Proof.Machine

/-! ### The engine -/

/-- BLOCK(b): the counter advances by 512 first, and the block is compressed with the advanced counter (R151,
90_conflicts.md C1). -/
def Engine.block (e : Engine) (b : Block) : Engine :=
  { e with t := e.t + 512, h := compress e.h e.salt (e.t + 512) e.nullt b }

/-- The buffer takes one byte at position `nx`. -/
def Engine.push (e : Engine) (byte : Byte) : Engine :=
  { e with x := e.x.setIfInBounds e.nx.val byte, nx := e.nx + 1 }

/-- ABSORB(byte): append to the buffer; when it is full, compress it and clear it, leaving the bytes of `x` stale
(R152). -/
def Engine.absorb (e : Engine) (byte : Byte) : Engine :=
  if (e.push byte).nx = 64 then { (e.push byte).block (e.push byte).x with nx := 0 } else e.push byte

/-- ABSORB each byte in order (R153). -/
def Engine.absorbAll (e : Engine) (bytes : List Byte) : Engine := bytes.foldl Engine.absorb e

/-- The counter backed off by `k` bits, modulo 2^64 (R11, R192 to R196). -/
def Engine.backOff (e : Engine) (k : Counter) : Engine := { e with t := e.t - k }

/-- `nullt <- 1` (R193, R194): done in SUM's snapshot only. -/
def Engine.setNullt (e : Engine) : Engine := { e with nullt := true }

/-! ### Ending a command -/

/-- `resp <- (status, value)`: the command on the port completes and the next word may be accepted (R13, R60). -/
def respond (st : Status) (value : Word) (s : State) : State :=
  { s with cmdIn := s.cmdIn.tail, resps := s.resps ++ [⟨st, value⟩] }

/-- TAKING A FAULT: the status is the response, with value 0; no field of the live state changes, no byte is emitted,
nothing is saved and no handler is entered (R226). The engine then accepts the next command word, so there is no
return from a fault (R227). -/
def raise (st : Status) (s : State) : State := respond st 0 s

/-- The prologue's check (R150, R222): Unconfigured while `cfg = 0`. -/
def whenConfigured (s : State) (go : Result) : Result :=
  if s.eng.cfg then go else .next (raise .unconfigured s)

/-- A command that appends to the buffer needs `nx` to name a byte of it (R26); log entry 9. -/
def whenBufferOpen (s : State) (go : Result) : Result :=
  if s.eng.nx = 64 then .fault .bufferOverrun else go

/-! ### Ports -/

/-- `len` times `DataIn()`: the bytes leave the port (R13). -/
def consume (len : Nat) (s : State) : State := { s with dataIn := s.dataIn.drop len }

/-- The live state becomes `e`. -/
def setEngine (e : Engine) (s : State) : State := { s with eng := e }

/-- `len` times `DataIn()`, then `go` with the bytes. Until all `len` bytes have arrived the command has not completed
and the engine waits, its command word still on the port (R254 item 1, U7; log entry 4). -/
def withData (len : Nat) (s : State) (go : List Byte → State → Result) : Result :=
  if s.dataIn.length < len then .next s
  else go (s.dataIn.take len) (consume len s)

/-- A command that emits bytes completes only when the host accepts them (R254 item 4, R258, U7; log entry 7). -/
def whenOutReady (s : State) (go : Result) : Result := if s.outReady then go else .next s

/-- `DataOut(b)` for each byte in order (R13). -/
def emit (bytes : List Byte) (s : State) : State := { s with dataOut := s.dataOut ++ bytes }

/-! ### Sessions -/

/-- A buffer of unspecified contents: 64 free bytes (R37, U1). -/
def freeBuffer (n : Nat) : Block := Vector.ofFn fun i : Fin 64 => Config.freeByte (n + i.val)

/-- `h <- IV; t <- 0; nx <- 0; nullt <- 0`, the buffer's contents become unspecified; the width, the salt and `cfg`
stay (R157). -/
def restartSession (s : State) : State :=
  { setEngine { s.eng with h := iv s.eng.w, t := 0, x := freeBuffer s.freeNext, nx := 0, nullt := false } s with
    freeNext := s.freeNext + 64 }

/-- Construction, the full reset: the width, the salt and `cfg` are set and the session starts (R155, R156). -/
def openSession (w : Width) (salt : Salt) (s : State) : State :=
  restartSession (setEngine { s.eng with cfg := true, w := w, salt := salt } s)

/-! ### What comes from outside -/

/-- The host delivers data bytes, with no command word: those a waiting NEWS or WRITE still lacks (R254 item 1). When
bytes arrive relative to their word is not the spec's. DESIGN CHOICE (log entry 25); safe. -/
def deliver (bytes : List Byte) (s : State) : State := { s with dataIn := s.dataIn ++ bytes }

/-- The host presents one command word and, right after it, data bytes (R59, R70): all of the command's bytes, or the
first of them, the rest following by `deliver`. That word and bytes arrive in one event is the model's: DESIGN CHOICE
(log entry 25); safe. -/
def present (word : Word) (bytes : List Byte) (s : State) : State :=
  deliver bytes { s with cmdIn := s.cmdIn ++ [word] }

/-- The power-on event at any time: the engine is as after power-on, the host's side of the ports is untouched (R251
item 1; log entry 21). -/
def powerOn (s : State) : State := setEngine Engine.powerOn s

end Sys2Proof.Machine
end

