-- ==== Sys2Proof/Machine/Finalize.lean ====
section
/-! DEFINITION. SUM: padding, finalization of a snapshot, and the digest (42_finalization.md R190 to R197). -/

namespace Sys2Proof.Machine

/-- `L = t + 8 * nx`, modulo 2^64 (R191). -/
def Engine.bitLength (e : Engine) : Counter := e.t + BitVec.ofNat 64 (8 * e.nx.val)

/-- Case n = 55: the one folded padding byte, after a back-off of 8 (R192). -/
def Engine.padFolded (e : Engine) : Engine := (e.backOff 8).absorb (foldedByte e.w)

/-- Case n <= 54: 0x80 and 54 - n zero bytes, after a back-off of 440 - 8n; the no-counter flag if n = 0 (R193). -/
def Engine.padOneBlock (e : Engine) : Engine :=
  let n := e.nx.val
  let e1 := if n = 0 then e.setNullt else e
  (e1.backOff (BitVec.ofNat 64 (440 - 8 * n))).absorbAll (0x80 :: List.replicate (54 - n) 0x00)

/-- Case 56 <= n <= 63: 0x80 and 63 - n zero bytes complete a block, then 55 zero bytes start a block that will be
compressed without the counter (R194). -/
def Engine.padTwoBlocks (e : Engine) : Engine :=
  let n := e.nx.val
  let e1 := (e.backOff (BitVec.ofNat 64 (512 - 8 * n))).absorbAll (0x80 :: List.replicate (63 - n) 0x00)
  ((e1.backOff 440).absorbAll (List.replicate 55 0x00)).setNullt

/-- The domain byte, and a back-off of 8 after it (R195). -/
def Engine.padDomain (e : Engine) : Engine := (e.absorb (domainByte e.w)).backOff 8

/-- The padding up to byte 56 of the last block: the three cases (R190 to R195). -/
def Engine.padded (e : Engine) : Engine :=
  if e.nx.val = 55 then e.padFolded
  else if e.nx.val < 55 then e.padOneBlock.padDomain
  else e.padTwoBlocks.padDomain

/-- The snapshot at the end of SUM: padding, then the length field after a back-off of 64 (R190, R196). -/
def Engine.finalize (e : Engine) : Engine :=
  (e.padded.backOff 64).absorbAll (bytesBe64 e.bitLength)

/-- The digest SUM emits (R197). -/
def Engine.digest (e : Engine) : List Byte := digestOf e.w e.finalize.h

/-- SUM: finalize a snapshot and emit the digest; the live state is not changed (R190, R200). -/
def execSum (s : State) : Result :=
  whenConfigured s <| whenOutReady s <| whenBufferOpen s <|
    .next (respond .ok 0 (emit s.eng.digest s))

end Sys2Proof.Machine
end

