-- ==== Sys2Proof/Machine/Inspect.lean ====
section
/-! DEFINITION. BLOCKSIZE and SIZE (41_stream.md R158, R159). -/

namespace Sys2Proof.Machine

/-- BLOCKSIZE: the response value is 64, in any state (R158, D29). -/
def execBlocksize (s : State) : Result := .next (respond .ok 64 s)

/-- SIZE: the response value is W/8 (R159). -/
def execSize (s : State) : Result :=
  whenConfigured s (.next (respond .ok (BitVec.ofNat 32 (digestBytes s.eng.w)) s))

end Sys2Proof.Machine
end

