-- ==== Sys2Proof/Machine/Session.lean ====
section
/-! DEFINITION. NEW, NEWS and RESET (41_stream.md R155 to R157). -/

namespace Sys2Proof.Machine

/-- NEW: an unsalted session; accepted with `cfg` 0 or 1 (R155). -/
def execNew (w : Width) (s : State) : Result :=
  .next (respond .ok 0 (openSession w (Vector.replicate 4 0) s))

/-- NEWS: a salted session. The salt bytes are always consumed; a length other than 16 raises InvalidSaltLength and the
previous state stays, configured or not (R156, R221). -/
def execNews (w : Width) (len : Nat) (s : State) : Result :=
  withData len s fun bytes s1 =>
    if len = 16 then .next (respond .ok 0 (openSession w (saltOfBytes bytes) s1))
    else .next (raise .invalidSaltLength s1)

/-- RESET: restart the session, keeping the width and the salt (R157). -/
def execReset (s : State) : Result :=
  whenConfigured s (.next (respond .ok 0 (restartSession s)))

end Sys2Proof.Machine
end

