-- ==== Sys2Proof/Machine/Stream.lean ====
section
/-! DEFINITION. WRITE (41_stream.md R150, R153). -/

namespace Sys2Proof.Machine

/-- WRITE: absorb `len` message bytes. While `cfg = 0` the bytes are consumed and discarded, and the command raises
Unconfigured (R150, R153, R222). -/
def execWrite (len : Nat) (s : State) : Result :=
  withData len s fun bytes s1 =>
    whenConfigured s1 <| whenBufferOpen s1 <|
      .next (respond .ok 0 (setEngine (s1.eng.absorbAll bytes) s1))

end Sys2Proof.Machine
end

