-- ==== Sys2Proof/Machine/Dispatch.lean ====
section
/-! DEFINITION. One arm per command of the opcode map (30_encoding.md R75). -/

namespace Sys2Proof.Machine

def exec (i : Instr) (s : State) : Host.Outcome State Fault Refusal :=
  match i with
  | .new w => Sys2Proof.Machine.execNew w s
  | .news w len => Sys2Proof.Machine.execNews w len s
  | .write len => Sys2Proof.Machine.execWrite len s
  | .sum => Sys2Proof.Machine.execSum s
  | .reset => Sys2Proof.Machine.execReset s
  | .blocksize => Sys2Proof.Machine.execBlocksize s
  | .size => Sys2Proof.Machine.execSize s

end Sys2Proof.Machine
end

