-- ==== Sys2Proof/Machine/Fetch.lean ====
section
/-! DEFINITION. The command port: no command presented, a word that is no command, and placing an instruction on the
ports. -/

namespace Sys2Proof.Machine

/-- No command word is presented. The engine holds its state and waits (60_exceptions.md R236, 70_reset_and_hazards.md
R250; log entry 5); bytes with no command are refused (93_implementation_defined.md U6; log entry 6). -/
def noCommand (s : State) : Result :=
  match s.dataIn with
  | [] => .next s
  | _ :: _ => .refused .surplusData

/-- The word on the port is no command: IllegalCommand, no data-in byte consumed (R78, R150, R220). -/
def illegalWord (s : State) : Result := .next (raise .illegalCommand s)

/-- `word` on the command port before every other, `bytes` on the data-in port before every other. -/
def placeCommand (word : Word) (bytes : List Byte) (s : State) : State :=
  { s with cmdIn := word :: s.cmdIn, dataIn := bytes ++ s.dataIn }

end Sys2Proof.Machine
end

