-- ==== Sys2Proof/Machine/Step.lean ====
section
/-! DEFINITION. One step of the engine: the command whose word is on the command port (41_stream.md R150). -/

namespace Sys2Proof.Machine

/-- `execute(word)` for the word on the command port (R150). A step is one whole command (R56, R57), or one turn of
waiting for input. The word leaves the port when the command responds. -/
def step (s : State) : Host.Outcome State Fault Refusal :=
  match s.cmdIn with
  | [] => noCommand s
  | word :: _ =>
    match decode word with
    | .ok i => exec i s
    | .error _ => illegalWord s

/-- `s` with an instruction, numbered as spec/opcode_table.json numbers it, next on the ports: its command word, and
the data bytes its LEN announces (zeros where the number gives none). -/
def State.withFetchWord (s : State) (nbits w : Nat) : State :=
  placeCommand (tableWord nbits w) (tableData nbits w) s

end Sys2Proof.Machine
end

