-- ==== Sys2Proof/Machine/Asm.lean ====
section
/-! DEFINITION. The host's way of writing commands: the abstract commands, their command words with data bytes, the
pseudo-commands, and the assembler syntax (30_encoding.md R80, R82, R83). -/

namespace Sys2Proof.Machine

/-- A command word and the data bytes that follow it (R70). -/
structure Frame where
  word : Word
  bytes : List Byte
  deriving DecidableEq, Repr

/-- The abstract command type (R80). -/
inductive Cmd where
  | new (w : Width)
  | news (w : Width) (salt : List Byte)
  | write (data : List Byte)
  | sum
  | reset
  | blocksize
  | size
  | illegal (word : Word)
  deriving DecidableEq, Repr

/-- The abstract command of a command word with its data bytes (R79, R80). -/
def Cmd.ofFrame (f : Frame) : Cmd :=
  match decode f.word with
  | .ok (.new w) => .new w
  | .ok (.news w _) => .news w f.bytes
  | .ok (.write _) => .write f.bytes
  | .ok .sum => .sum
  | .ok .reset => .reset
  | .ok .blocksize => .blocksize
  | .ok .size => .size
  | .error _ => .illegal f.word

/-- The most bytes one WRITE carries, 2^24 - 1 (R74). -/
def maxLen : Nat := 2 ^ 24 - 1

/-- One WRITE word with its bytes. -/
def writeFrame (data : List Byte) : Frame := ⟨encode (.write data.length), data⟩

/-- Consecutive WRITEs of at most `size` bytes each, in order (R83); `fuel` bounds their number. R83 leaves two points
open. DESIGN CHOICE (log entry 27); unsafe: a WRITE of no bytes is always written out, as one word. DESIGN CHOICE (log
entry 28); unsafe: the cut takes full `size` bytes first and the remainder last. -/
def writeChunks (size : Nat) : Nat → List Byte → List Frame
  | 0, data => [writeFrame data]
  | fuel + 1, data =>
    if data.length ≤ size then [writeFrame data]
    else writeFrame (data.take size) :: writeChunks size fuel (data.drop size)

/-- The command words an abstract command stands for: one, except that a WRITE of more than 2^24 - 1 bytes is
consecutive WRITEs (R74, R80, R83). No word carries a NEWS whose salt is longer than that. -/
def Cmd.frames : Cmd → Option (List Frame)
  | .new w => some [⟨encode (.new w), []⟩]
  | .news w salt => if lenFits salt.length then some [⟨encode (.news w salt.length), salt⟩] else none
  | .write data => some (writeChunks maxLen data.length data)
  | .sum => some [⟨encode .sum, []⟩]
  | .reset => some [⟨encode .reset, []⟩]
  | .blocksize => some [⟨encode .blocksize, []⟩]
  | .size => some [⟨encode .size, []⟩]
  | .illegal word => some [⟨word, []⟩]

/-- The words of a sequence of commands, in order. -/
def framesOf : List Cmd → Option (List Frame)
  | [] => some []
  | c :: cs =>
    match c.frames, framesOf cs with
    | some fs, some rest => some (fs ++ rest)
    | _, _ => none

/-- The host presents a sequence of framed commands (R70). -/
def presentAll (fs : List Frame) (s : State) : State :=
  fs.foldl (fun s f => present f.word f.bytes s) s

/-- `HASH256 <bytes>` (R83). -/
def hash256 (data : List Byte) : List Cmd := [.new .w256, .write data, .sum]

/-- `HASH224 <bytes>` (R83). -/
def hash224 (data : List Byte) : List Cmd := [.new .w224, .write data, .sum]

/-- `HASHS256 <salt>, <bytes>` (R83). -/
def hashSalted256 (salt data : List Byte) : List Cmd := [.news .w256 salt, .write data, .sum]

/-! ### Assembler syntax (R82; log entry 20) -/

/-- A blank between the parts of a line. -/
def isBlank (c : Char) : Bool := c = ' ' || c = '\t'

/-- The text after its leading blanks. -/
def skipBlanks : List Char → List Char
  | [] => []
  | c :: cs => if isBlank c then skipBlanks cs else c :: cs

/-- Nothing is left on the line but blanks and a comment (`;` starts a comment). -/
def atLineEnd (cs : List Char) : Bool :=
  match skipBlanks cs with
  | [] => true
  | c :: _ => c = ';'

/-- The mnemonic at the front of a line, and the rest. -/
def splitMnemonic : List Char → List Char × List Char
  | [] => ([], [])
  | c :: cs =>
    if isBlank c || c = ';' then ([], c :: cs)
    else ((c :: (splitMnemonic cs).1), (splitMnemonic cs).2)

/-- The value of a hex digit. -/
def hexDigit (c : Char) : Option Nat :=
  if '0' ≤ c ∧ c ≤ '9' then some (c.toNat - '0'.toNat)
  else if 'a' ≤ c ∧ c ≤ 'f' then some (c.toNat - 'a'.toNat + 10)
  else if 'A' ≤ c ∧ c ≤ 'F' then some (c.toNat - 'A'.toNat + 10)
  else none

/-- The bytes of an ASCII string after its opening quote, and the text after its closing quote; the escapes are `\"`
and `\\`. -/
def stringBytes : List Char → Option (List Byte × List Char)
  | [] => none
  | '"' :: cs => some ([], cs)
  | '\\' :: '"' :: cs => (stringBytes cs).map fun r => (0x22 :: r.1, r.2)
  | '\\' :: '\\' :: cs => (stringBytes cs).map fun r => (0x5C :: r.1, r.2)
  | '\\' :: _ => none
  | c :: cs =>
    if c.toNat < 128 then (stringBytes cs).map fun r => (BitVec.ofNat 8 c.toNat :: r.1, r.2) else none

/-- The bytes of `x"<hex>"` after its opening quote: two digits a byte, the first byte leftmost. -/
def hexBytes : List Char → Option (List Byte × List Char)
  | '"' :: cs => some ([], cs)
  | a :: b :: cs =>
    match hexDigit a, hexDigit b, hexBytes cs with
    | some hi, some lo, some r => some (BitVec.ofNat 8 (16 * hi + lo) :: r.1, r.2)
    | _, _, _ => none
  | _ => none

/-- The decimal number at the front of a text, `acc` being the digits before it. -/
def decimal (acc : Nat) : List Char → Nat × List Char
  | [] => (acc, [])
  | c :: cs =>
    if '0' ≤ c ∧ c ≤ '9' then decimal (10 * acc + (c.toNat - '0'.toNat)) cs else (acc, c :: cs)

/-- The count of `zeros(<n>)` after its opening bracket: at least one digit, then the closing bracket. -/
def zeroBytes : List Char → Option (List Byte × List Char)
  | [] => none
  | c :: cs =>
    if '0' ≤ c ∧ c ≤ '9' then
      match decimal 0 (c :: cs) with
      | (n, ')' :: rest) => some (List.replicate n 0x00, rest)
      | _ => none
    else none

/-- `<bytes>` in one of its three forms. -/
def bytesOperand : List Char → Option (List Byte × List Char)
  | '"' :: cs => stringBytes cs
  | 'x' :: '"' :: cs => hexBytes cs
  | 'z' :: 'e' :: 'r' :: 'o' :: 's' :: '(' :: cs => zeroBytes cs
  | _ => none

/-- `256` or `224`. -/
def widthOperand : List Char → Option (Width × List Char)
  | '2' :: '5' :: '6' :: cs => some (.w256, cs)
  | '2' :: '2' :: '4' :: cs => some (.w224, cs)
  | _ => none

/-- The comma between two operands. -/
def commaOperand (cs : List Char) : Option (List Char) :=
  match skipBlanks cs with
  | ',' :: rest => some (skipBlanks rest)
  | _ => none

/-- `0x` and exactly eight hex digits. -/
def wordOperand : List Char → Option (Word × List Char)
  | '0' :: 'x' :: a :: b :: c :: d :: e :: f :: g :: h :: cs =>
    match hexBytes [a, b, c, d, e, f, g, h, '"'] with
    | some ([b0, b1, b2, b3], _) => some (be32 b0 b1 b2 b3, cs)
    | _ => none
  | _ => none

/-- The parsed operands `r`, if nothing but a comment follows them. -/
def lastOperand {α : Type} (r : Option (α × List Char)) : Option α :=
  match r with
  | some (a, rest) => if atLineEnd rest then some a else none
  | none => none

/-- A width, a comma and bytes. -/
def saltedOperands (cs : List Char) : Option (Width × List Byte) :=
  match widthOperand cs with
  | some (w, rest) =>
    match commaOperand rest with
    | some rest' => (lastOperand (bytesOperand rest')).map fun b => (w, b)
    | none => none
  | none => none

/-- Two byte strings and a comma between them. -/
def twoByteOperands (cs : List Char) : Option (List Byte × List Byte) :=
  match bytesOperand cs with
  | some (a, rest) =>
    match commaOperand rest with
    | some rest' => (lastOperand (bytesOperand rest')).map fun b => (a, b)
    | none => none
  | none => none

/-- A mnemonic that takes no operands. -/
def bareCommand (c : Cmd) (cs : List Char) : Option (List Cmd) := if atLineEnd cs then some [c] else none

/-- The commands of a mnemonic with the operand text after it (R82, R83). -/
def commandsOf (mnemonic operands : List Char) : Option (List Cmd) :=
  if mnemonic = "NEW".toList then (lastOperand (widthOperand operands)).map fun w => [.new w]
  else if mnemonic = "NEWS".toList then (saltedOperands operands).map fun r => [.news r.1 r.2]
  else if mnemonic = "WRITE".toList then (lastOperand (bytesOperand operands)).map fun b => [.write b]
  else if mnemonic = "SUM".toList then bareCommand .sum operands
  else if mnemonic = "RESET".toList then bareCommand .reset operands
  else if mnemonic = "BLOCKSIZE".toList then bareCommand .blocksize operands
  else if mnemonic = "SIZE".toList then bareCommand .size operands
  else if mnemonic = "HASH256".toList then (lastOperand (bytesOperand operands)).map hash256
  else if mnemonic = "HASH224".toList then (lastOperand (bytesOperand operands)).map hash224
  else if mnemonic = "HASHS256".toList then (twoByteOperands operands).map fun r => hashSalted256 r.1 r.2
  else none

/-- One line of assembler text: its command words with their data bytes, none for a blank or comment line, `none` for a
line that is not of the syntax. `.word` emits its word as it stands. -/
def assembleLine (line : List Char) : Option (List Frame) :=
  if atLineEnd line then some []
  else
    let m := splitMnemonic (skipBlanks line)
    if m.1 = ".word".toList then
      (lastOperand (wordOperand (skipBlanks m.2))).map fun w => [⟨w, []⟩]
    else
      match commandsOf m.1 (skipBlanks m.2) with
      | some cs => framesOf cs
      | none => none

/-- A program, one command a line. -/
def assemble : List (List Char) → Option (List Frame)
  | [] => some []
  | l :: ls =>
    match assembleLine l, assemble ls with
    | some fs, some rest => some (fs ++ rest)
    | _, _ => none

end Sys2Proof.Machine
end

