-- ==== Sys2Proof/Machine/Platform.lean ====
section
/-! DEFINITION. A platform of several independent engines, and several hosts that share one engine (00_scope.md R8,
20_memory.md R58, R59, 60_exceptions.md R234; 93_implementation_defined.md U8, U9). -/

namespace Sys2Proof.Machine

/-- The engines of a platform, each with its own state and ports (R234). -/
structure Platform where
  engines : List State
  deriving DecidableEq, Repr

/-- Every engine leaves power-on reset unconfigured (R234, R250). -/
def Platform.reset : Platform := ⟨List.replicate Config.engineCount State.reset⟩

/-- What can happen on a platform. Which engine moves next is not fixed: a claim takes any sequence of events (R58). How
the host's acts are cut into events is the model's: DESIGN CHOICE (log entries 25 and 26); safe. -/
inductive PlatformEvent where
  /-- Engine `k` takes a step. -/
  | run (k : Nat)
  /-- The host of engine `k` presents a command word and its data bytes, or the first of them (log entry 25). -/
  | present (k : Nat) (word : Word) (bytes : List Byte)
  /-- The host of engine `k` delivers further data bytes, with no command word (log entry 25). -/
  | deliver (k : Nat) (bytes : List Byte)
  /-- The host of engine `k` accepts, or stops accepting, data-out bytes. -/
  | accept (k : Nat) (ready : Bool)
  /-- Engine `k` alone is powered on anew. The spec does not say whether a power-on in mid-run reaches one engine or all
  (R250, R251): DESIGN CHOICE (log entry 26); a power-on of all is one such event for each engine. -/
  | powerOn (k : Nat)
  deriving DecidableEq, Repr

/-- The platform with engine `k` replaced by `s`. -/
def Platform.put (p : Platform) (k : Nat) (s : State) : Platform := ⟨p.engines.set k s⟩

/-- An outcome of engine `k`, seen from the platform. -/
def Platform.lift (p : Platform) (k : Nat) (r : Result) : Host.Outcome Platform Fault Refusal :=
  match r with
  | .next s => .next (p.put k s)
  | .fault f => .fault f
  | .refused f => .refused f

/-- What an event does to the engine it names. -/
def PlatformEvent.onEngine (ev : PlatformEvent) (s : State) : Result :=
  match ev with
  | .run _ => step s
  | .present _ word bytes => .next (Sys2Proof.Machine.present word bytes s)
  | .deliver _ bytes => .next (Sys2Proof.Machine.deliver bytes s)
  | .accept _ ready => .next { s with outReady := ready }
  | .powerOn _ => .next (Sys2Proof.Machine.powerOn s)

/-- The engine an event names. -/
def PlatformEvent.engine : PlatformEvent → Nat
  | .run k => k
  | .present k _ _ => k
  | .deliver k _ => k
  | .accept k _ => k
  | .powerOn k => k

/-- One event: it touches the engine it names and no other (R58). -/
def Platform.step (p : Platform) (ev : PlatformEvent) : Host.Outcome Platform Fault Refusal :=
  match p.engines[ev.engine]? with
  | some s => p.lift ev.engine (ev.onEngine s)
  | none => .refused .noSuchEngine

/-- `Interleaves hosts order`: `order` is an interleaving of whole commands of the hosts' sequences, each host's own
commands in its own order. "A model admits every interleaving of whole commands" (R59, U8). -/
inductive Interleaves {α : Type} : List (List α) → List α → Prop where
  | done {hosts : List (List α)} (h : ∀ l ∈ hosts, l = []) : Interleaves hosts []
  | take {hosts : List (List α)} {order : List α} (k : Nat) (c : α) (rest : List α)
      (h : hosts[k]? = some (c :: rest)) (t : Interleaves (hosts.set k rest) order) : Interleaves hosts (c :: order)

end Sys2Proof.Machine
end

