-- ==== Sys2Proof/Machine/Reference.lean ====
section
/-! DEFINITION. The spec's second descriptions of what WRITE and SUM compute, which the claims compare the commands
with: the source's direct WRITE (41_stream.md R154), SUM in closed form (42_finalization.md R198), and the padded
message at bit level (R199). -/

namespace Sys2Proof.Machine

/-- A block from a list of 64 bytes. -/
def blockOfBytes (l : List Byte) : Block := Vector.ofFn fun i : Fin 64 => l.getD i.val 0

/-- The message bytes in the buffer, `x[0..nx-1]` (R26). -/
def Engine.bufferBytes (e : Engine) : List Byte := e.x.toList.take e.nx.val

/-! ### The source's WRITE (R154) -/

/-- Full 64-byte chunks compressed directly, and the bytes left over; `fuel` bounds the number of chunks. -/
def Engine.directBlocks (e : Engine) : Nat → List Byte → Engine × List Byte
  | 0, data => (e, data)
  | fuel + 1, data =>
    if data.length < 64 then (e, data)
    else Engine.directBlocks (e.block (blockOfBytes (data.take 64))) fuel (data.drop 64)

/-- The buffer filled with `tail`, which is shorter than a block. -/
def Engine.fillBuffer (e : Engine) (tail : List Byte) : Engine :=
  { e with x := blockOfBytes tail, nx := Fin.ofNat 65 tail.length }

/-- The source's procedure: fill the existing buffer, compress it, compress the full chunks beyond it directly, copy the
tail into the buffer. -/
def Engine.writeDirect (e : Engine) (data : List Byte) : Engine :=
  let n := e.nx.val
  if n + data.length < 64 then e.fillBuffer (e.bufferBytes ++ data)
  else
    let first := { e.block (blockOfBytes (e.bufferBytes ++ data.take (64 - n))) with nx := 0 }
    let r := first.directBlocks data.length (data.drop (64 - n))
    r.1.fillBuffer r.2

/-! ### SUM in closed form (R198) -/

/-- The chain value SUM's digest is taken from, by the table of R198: the blocks, the counter `L` passed and the
no-counter flag of each compression. -/
def Engine.closedChain (e : Engine) : Chain :=
  let n := e.nx.val
  let l := e.bitLength
  let zeros := fun k : Nat => List.replicate k (0x00 : Byte)
  if n = 0 then
    compress e.h e.salt l true (blockOfBytes (0x80 :: zeros 54 ++ [domainByte e.w] ++ bytesBe64 l))
  else if n ≤ 54 then
    compress e.h e.salt l false
      (blockOfBytes (e.bufferBytes ++ 0x80 :: zeros (54 - n) ++ [domainByte e.w] ++ bytesBe64 l))
  else if n = 55 then
    compress e.h e.salt l false (blockOfBytes (e.bufferBytes ++ [foldedByte e.w] ++ bytesBe64 l))
  else
    let first := compress e.h e.salt l false (blockOfBytes (e.bufferBytes ++ 0x80 :: zeros (63 - n)))
    compress first e.salt l true (blockOfBytes (zeros 55 ++ [domainByte e.w] ++ bytesBe64 l))

/-! ### The padded message (R199) -/

/-- The bits of a byte, most significant first. -/
def bitsOfByte (b : Byte) : List Bool := (List.range 8).map fun k => b.getLsbD (7 - k)

/-- The bits of a message, first byte first. -/
def bitsOfBytes (m : List Byte) : List Bool := m.flatMap bitsOfByte

/-- The byte whose bits, most significant first, are bits `8i` to `8i + 7` of `bits`. -/
def byteOfBits (bits : List Bool) (i : Nat) : Byte :=
  ((List.range 8).map fun k => (BitVec.ofBool (bits.getD (8 * i + k) false)).setWidth 8 <<< (7 - k)).foldl (· ||| ·) 0

/-- How many 0 bits follow the 1 bit: the fewest that make the length congruent to 447 modulo 512. -/
def zeroPadding (len : Nat) : Nat := (958 - len % 512) % 512

/-- The domain bit: 1 for BLAKE-256, 0 for BLAKE-224. -/
def domainBit : Width → Bool
  | .w224 => false
  | .w256 => true

/-- The padded message: M, a 1 bit, the zero bits, the domain bit, the 64-bit big-endian length (R199). -/
def paddedBits (w : Width) (m : List Byte) : List Bool :=
  let len := 8 * m.length
  bitsOfBytes m ++ true :: List.replicate (zeroPadding len) false ++ [domainBit w] ++
    (List.range 64).map fun k => (BitVec.ofNat 64 len).getLsbD (63 - k)

/-- Block `k` of a padded message. -/
def paddedBlock (bits : List Bool) (k : Nat) : Block := Vector.ofFn fun i : Fin 64 => byteOfBits bits (64 * k + i.val)

/-- The compression of block `k`: a block that holds a bit of M takes the number of message bits up to the end of that
block, capped at L; a block that holds none takes no counter (R199). -/
def paddedCompress (salt : Salt) (bits : List Bool) (len : Nat) (h : Chain) (k : Nat) : Chain :=
  if 512 * k < len then compress h salt (BitVec.ofNat 64 (min (512 * (k + 1)) len)) false (paddedBlock bits k)
  else compress h salt 0 true (paddedBlock bits k)

/-- The digest of a message by the padded-message description (R197, R199). -/
def blakeDigest (w : Width) (salt : Salt) (m : List Byte) : List Byte :=
  let bits := paddedBits w m
  digestOf w
    ((List.range (bits.length / 512)).foldl (paddedCompress salt bits (8 * m.length)) (iv w))

end Sys2Proof.Machine
end

