-- ==== Sys2Proof/Safety.lean ====
section
/-! DEFINITION. What counts as a good state and a successful run, and when two states cannot be told apart, in the terms
the claims use. -/

namespace Sys2Proof.Machine

/-- Every response so far is OK: the run is successful (60_exceptions.md R228). -/
def State.AllOk (s : State) : Prop := ∀ r ∈ s.resps, r.status = .ok

/-- What a run leaves observable: the responses and the emitted bytes (00_scope.md R17). -/
def State.observed (s : State) : List Response × List Byte := (s.resps, s.dataOut)

/-- The invariants between commands of a configured engine: `nx <= 63` (R26, R36 item 3), `nullt = 0` (R27), and the
counter is a multiple of 512 (R25). -/
def Engine.Inv (e : Engine) : Prop :=
  e.cfg = true → e.nx.val ≤ 63 ∧ e.nullt = false ∧ e.t.toNat % 512 = 0

/-- The invariant of the whole machine: that of its engine. -/
def State.Inv (s : State) : Prop := s.eng.Inv

/-- The data-in port holds exactly the bytes the presented command words announce (30_encoding.md R70,
70_reset_and_hazards.md R254 item 1): the host keeps its framing duty. -/
def State.Framed (s : State) : Prop := s.dataIn.length = (s.cmdIn.map announced).sum

/-- Two buffers agree on the bytes that hold message data, `x[0..n-1]` (R26). -/
def sameBytes (n : Nat) (x y : Block) : Prop := ∀ (i : Nat) (h : i < 64), i < n → x[i] = y[i]

/-- Two engines in the same session state: every field but the unspecified bytes `x[nx..63]` (R26, R37). -/
def Engine.SameSession (e e' : Engine) : Prop :=
  e.w = e'.w ∧ e.h = e'.h ∧ e.salt = e'.salt ∧ e.t = e'.t ∧ e.nx = e'.nx ∧ e.nullt = e'.nullt ∧
    sameBytes e.nx.val e.x e'.x

/-- Two engines that differ only in what the spec leaves unspecified: the bytes `x[nx..63]` (U1), and every field but
`cfg` while `cfg = 0` (U2). -/
def Engine.Agrees (e e' : Engine) : Prop := e.cfg = e'.cfg ∧ (e.cfg = true → e.SameSession e')

/-- Two machines that differ only in what the spec leaves unspecified. The number of the next free byte may differ. -/
def State.Agrees (s s' : State) : Prop :=
  s.eng.Agrees s'.eng ∧ s.cmdIn = s'.cmdIn ∧ s.dataIn = s'.dataIn ∧ s.dataOut = s'.dataOut ∧
    s.resps = s'.resps ∧ s.outReady = s'.outReady

/-- Two outcomes that differ only in what the spec leaves unspecified. -/
def resultsAgree : Result → Result → Prop
  | .next s, .next s' => s.Agrees s'
  | .fault f, .fault f' => f = f'
  | .refused f, .refused f' => f = f'
  | _, _ => False

/-- From `s` to `t` one command has ended with the response (`st`, `value`), having taken `taken` data-in bytes and
emitted `out`: its word has left the command port, and nothing else happened on the ports (R13, R60). -/
def Responded (s t : State) (st : Status) (value : Word) (taken : Nat) (out : List Byte) : Prop :=
  t.cmdIn = s.cmdIn.tail ∧ t.dataIn = s.dataIn.drop taken ∧ t.dataOut = s.dataOut ++ out ∧
    t.resps = s.resps ++ [⟨st, value⟩] ∧ t.outReady = s.outReady

/-- A freshly constructed or restarted session of width `w` and salt `salt` (R37): the buffer's bytes are left open. -/
def Engine.IsFresh (e : Engine) (w : Width) (salt : Salt) : Prop :=
  e.cfg = true ∧ e.w = w ∧ e.salt = salt ∧ e.h = iv w ∧ e.t = 0 ∧ e.nx = 0 ∧ e.nullt = false

/-- The bytes of data-in at positions `4i` to `4i + 3`, as a big-endian word (R23). -/
def wordAt (bytes : List Byte) (i : Nat) : Word :=
  be32 (bytes.getD (4 * i) 0) (bytes.getD (4 * i + 1) 0) (bytes.getD (4 * i + 2) 0) (bytes.getD (4 * i + 3) 0)

/-- Commands run one after another, for statements that chain commands; it stops at the first stop. -/
def execAll : List Instr → State → Result
  | [], s => .next s
  | i :: is, s =>
    match exec i s with
    | .next t => execAll is t
    | .fault f => .fault f
    | .refused r => .refused r

/-- The message bytes a command takes from data-in: those of a WRITE (20_memory.md R53). -/
def bytesWritten : Instr → List Byte → List Byte
  | .new _, _ => []
  | .news _ _, _ => []
  | .write len, bytes => bytes.take len
  | .sum, _ => []
  | .reset, _ => []
  | .blocksize, _ => []
  | .size, _ => []

/-- The message bytes among the data-in bytes of a sequence of commands, in order. -/
def messageBytes : List Instr → List Byte → List Byte
  | [], _ => []
  | i :: is, bytes => bytesWritten i bytes ++ messageBytes is (bytes.drop i.dataLen)

/-- The conditions under which a command word is illegal, as 30_encoding.md R78 lists them. -/
def wordIllegal (word : Word) : Prop :=
  6 ≤ (fieldOpc word).toNat ∨
  fieldRsv word ≠ 0 ∨
  (fieldOpc word = 0 ∧ fieldSp word = false ∧ fieldLen word ≠ 0) ∨
  (fieldOpc word = 1 ∧ (fieldW224 word = true ∨ fieldSp word = true)) ∨
  (2 ≤ (fieldOpc word).toNat ∧ (fieldOpc word).toNat ≤ 5 ∧ fieldHigh word ≠ 0)

/-- The commands that fault while the engine is unconfigured (60_exceptions.md R222). -/
def needsSession : Instr → Bool
  | .new _ => false
  | .news _ _ => false
  | .write _ => true
  | .sum => true
  | .reset => true
  | .blocksize => false
  | .size => true

/-- The commands that construct a session when they complete: NEW, and NEWS with 16 salt bytes (R155, R156). -/
def constructs : Instr → Bool
  | .new _ => true
  | .news _ len => decide (len = 16)
  | .write _ => false
  | .sum => false
  | .reset => false
  | .blocksize => false
  | .size => false

end Sys2Proof.Machine
end

