-- ==== Sys2Proof/Certificates/Slice0/Obligations.lean ====
section
/-! DEFINITION. The statements of this model, each from a numbered rule of spec/ or derived from several. -/

open Sys2Proof Sys2Proof.Machine

/-! ### Encoding -/

/-- Words written out from the spec's encodings decode to the commands they stand for, and illegal words do not
(30_encoding.md R79; the words of 95_test_vectors.md P1, P3, V15). -/
def Obligations.SampleWordsDecode : Prop :=
  decode 0x00000000 = .ok (.new .w256) ∧ decode 0x00000010 = .ok (.new .w224) ∧
  decode 0x00001020 = .ok (.news .w256 16) ∧ decode 0x00001030 = .ok (.news .w224 16) ∧
  decode 0x00000820 = .ok (.news .w256 8) ∧ decode 0x00000501 = .ok (.write 5) ∧
  decode 0xFFFFFF01 = .ok (.write 16777215) ∧
  decode 0x00000002 = .ok .sum ∧ decode 0x00000003 = .ok .reset ∧
  decode 0x00000004 = .ok .blocksize ∧ decode 0x00000005 = .ok .size ∧
  decode 0x00000006 = .error .reservedOpcode ∧ decode 0x00000040 = .error .reservedBits ∧
  decode 0x00000110 = .error .newWithLength ∧ decode 0x00000021 = .error .writeWithWidthOrSalt ∧
  decode 0x00000102 = .error .unusedField

/-- Decoding the word of a well-formed command gives the command back, with every operand (R71, R79). -/
def Obligations.DecodeAfterEncode : Prop :=
  ∀ i : Instr, i.wellFormed = true → decode (encode i) = .ok i

/-- Every word a command is read from is that command's word, and the command is well formed: no bit of a legal word is
dropped (R71, R75, R79). -/
def Obligations.EncodeAfterDecode : Prop :=
  ∀ (word : Word) (i : Instr), decode word = .ok i → encode i = word ∧ i.wellFormed = true

/-- The opcode map as match and mask, with the operand fields: a word is a command of a row exactly when it matches the
row (R72, R74, R75). -/
def Obligations.OpcodeMapRows : Prop :=
  (∀ (word : Word) (w : Width), decode word = .ok (.new w) ↔
    word &&& 0xFFFFFFEF = 0x00000000 ∧ w = if word.getLsbD 4 then .w224 else .w256) ∧
  (∀ (word : Word) (w : Width) (len : Nat), decode word = .ok (.news w len) ↔
    word &&& 0x000000EF = 0x00000020 ∧ (w = if word.getLsbD 4 then .w224 else .w256) ∧ len = word.toNat / 256) ∧
  (∀ (word : Word) (len : Nat), decode word = .ok (.write len) ↔
    word &&& 0x000000FF = 0x00000001 ∧ len = word.toNat / 256) ∧
  (∀ word : Word, decode word = .ok .sum ↔ word &&& 0xFFFFFFFF = 0x00000002) ∧
  (∀ word : Word, decode word = .ok .reset ↔ word &&& 0xFFFFFFFF = 0x00000003) ∧
  (∀ word : Word, decode word = .ok .blocksize ↔ word &&& 0xFFFFFFFF = 0x00000004) ∧
  (∀ word : Word, decode word = .ok .size ↔ word &&& 0xFFFFFFFF = 0x00000005)

/-- A word is no command exactly under the conditions of R78; it completes with IllegalCommand and value 0, changes no
state, consumes no data-in byte and emits none (R78, R220). -/
def Obligations.IllegalWordFaults : Prop :=
  (∀ word : Word, (∃ e, decode word = .error e) ↔ wordIllegal word) ∧
  (∀ (word : Word) (rest : List Word) (s : State), s.cmdIn = word :: rest → wordIllegal word →
    step s = .next { s with cmdIn := rest, resps := s.resps ++ [⟨.illegalCommand, 0⟩] })

/-- The abstract commands: the word and bytes of a command that is one frame read back as that command, and the bytes
are as many as the word announces (R80). An illegal command is one whose word decodes to none. -/
def Obligations.AbstractCommandReadsBack : Prop :=
  ∀ (c : Cmd) (f : Frame), c.frames = some [f] →
    (∀ word : Word, c = .illegal word → ∃ e, decode word = .error e) →
    Cmd.ofFrame f = c ∧ f.bytes.length = announced f.word

/-- A WRITE of any length is consecutive WRITE words of at most 2^24 - 1 bytes each, in order (R74, R80, R83). -/
def Obligations.LongWriteSplits : Prop :=
  ∀ data : List Byte, ∃ fs : List Frame, (Cmd.write data).frames = some fs ∧
    (fs.map Frame.bytes).flatten = data ∧
    ∀ f ∈ fs, decode f.word = .ok (.write f.bytes.length) ∧ f.bytes.length ≤ 2 ^ 24 - 1

/-! ### The step -/

/-- When the word on the command port decodes to a command, the step is that command's meaning (R150). Nothing is added
around it: the meaning takes the word off the port when it responds. The same for an instruction placed by
`withFetchWord`. -/
def Obligations.StepRunsDecodedCommand : Prop :=
  (∀ (s : State) (word : Word) (rest : List Word) (i : Instr),
    s.cmdIn = word :: rest → decode word = .ok i → step s = exec i s) ∧
  (∀ (s : State) (nbits w : Nat) (i : Instr), decodeTableWord nbits w = some i →
    step (s.withFetchWord nbits w) = exec i (s.withFetchWord nbits w))

/-- With no command presented the engine holds its state (R236, R250); bytes with no command are refused by name (U6).
The refusal is the model's form of U6 (log entries 5 and 6). -/
def Obligations.StepWithoutCommand : Prop :=
  ∀ s : State, s.cmdIn = [] →
    (s.dataIn = [] → step s = .next s) ∧ (s.dataIn ≠ [] → step s = .refused .surplusData)

/-- A step either leaves the state as it is, or ends the command on the port with exactly one response, its word leaving
the port; responses and emitted bytes are only ever added to. One response for each command, at most one status, is the
spec's (R57, R60, R225); that a step without a response leaves the state as it is, a waiting NEWS or WRITE taking no byte
yet, a waiting SUM emitting none and idling being a step, and that bytes appear on data-out only in the step that
responds, are the model's choice (log entries 4, 5, 7 and 24). -/
def Obligations.OneResponsePerCommand : Prop :=
  ∀ s t : State, step s = .next t →
    t = s ∨ (s.cmdIn ≠ [] ∧ ∃ (st : Status) (value : Word) (taken : Nat) (out : List Byte),
      taken ≤ s.dataIn.length ∧ Responded s t st value taken out)

/-- NEWS and WRITE wait for their data-in bytes, and SUM for the host's acceptance of its digest: the command does not
complete, and the state is as it was (R254 items 1 and 4, R258, U7). That waiting is a step to the same state is the
model's choice (log entries 4 and 7). -/
def Obligations.ShortInputWaits : Prop :=
  (∀ (s : State) (w : Width) (len : Nat), s.dataIn.length < len → exec (.news w len) s = .next s) ∧
  (∀ (s : State) (len : Nat), s.dataIn.length < len → exec (.write len) s = .next s) ∧
  (∀ s : State, s.eng.cfg = true → s.outReady = false → exec .sum s = .next s)

/-! ### Construction, reset and introspection -/

/-- NEW opens an unsalted session, whatever the state was (R155). -/
def Obligations.NewOpensUnsaltedSession : Prop :=
  (∀ word : Word, word &&& 0xFFFFFFEF = 0x00000000 →
    decode word = .ok (.new (if word.getLsbD 4 then .w224 else .w256))) ∧
  (∀ (w : Width) (s : State), ∃ t : State, exec (.new w) s = .next t ∧ Responded s t .ok 0 0 [] ∧
    t.eng.cfg = true ∧ t.eng.w = w ∧ t.eng.salt = #v[0, 0, 0, 0] ∧
    t.eng.h = (if w = .w224 then iv224 else iv256) ∧ t.eng.t = 0 ∧ t.eng.nx = 0 ∧ t.eng.nullt = false)

/-- NEW gives the same session state as NEWS with 16 zero bytes: the spec's own derivation in R155. -/
def Obligations.NewIsNewsWithZeroSalt : Prop :=
  ∀ (w : Width) (s : State) (rest : List Byte), s.dataIn = List.replicate 16 0x00 ++ rest →
    ∃ t u : State, exec (.new w) s = .next t ∧ exec (.news w 16) s = .next u ∧
      t.eng.cfg = u.eng.cfg ∧ t.eng.SameSession u.eng

/-- NEWS with 16 bytes opens a salted session; with another number of bytes it consumes them, answers InvalidSaltLength,
and the previous state stays (R156). -/
def Obligations.NewsOpensSaltedSession : Prop :=
  (∀ word : Word, word &&& 0x000000EF = 0x00000020 →
    decode word = .ok (.news (if word.getLsbD 4 then .w224 else .w256) (word.toNat / 256))) ∧
  (∀ (w : Width) (s : State), 16 ≤ s.dataIn.length →
    ∃ t : State, exec (.news w 16) s = .next t ∧ Responded s t .ok 0 16 [] ∧
      t.eng.cfg = true ∧ t.eng.w = w ∧ (∀ (i : Nat) (hi : i < 4), t.eng.salt[i] = wordAt s.dataIn i) ∧
      t.eng.h = (if w = .w224 then iv224 else iv256) ∧ t.eng.t = 0 ∧ t.eng.nx = 0 ∧ t.eng.nullt = false) ∧
  (∀ (w : Width) (len : Nat) (s : State), len ≠ 16 → len ≤ s.dataIn.length →
    ∃ t : State, exec (.news w len) s = .next t ∧ Responded s t .invalidSaltLength 0 len [] ∧ t.eng = s.eng)

/-- InvalidSaltLength: raised by NEWS with a length other than 16 and by nothing else; the salt bytes are consumed, no
state changes, and a NEWS with 16 bytes right after it succeeds (R221). -/
def Obligations.InvalidSaltLengthFault : Prop :=
  (∀ (w : Width) (len : Nat) (s : State), len ≠ 16 → len ≤ s.dataIn.length →
    exec (.news w len) s = .next { s with
      cmdIn := s.cmdIn.tail, dataIn := s.dataIn.drop len, resps := s.resps ++ [⟨.invalidSaltLength, 0⟩] }) ∧
  (∀ (i : Instr) (s t : State) (r : Response), exec i s = .next t → t.resps = s.resps ++ [r] →
    r.status = .invalidSaltLength → ∃ (w : Width) (len : Nat), i = .news w len ∧ len ≠ 16) ∧
  (∀ (w w' : Width) (len : Nat) (s t : State), len ≠ 16 → len + 16 ≤ s.dataIn.length →
    exec (.news w len) s = .next t →
    ∃ u : State, exec (.news w' 16) t = .next u ∧ Responded t u .ok 0 16 [])

/-- RESET restarts the session and keeps the width, the salt and `cfg`; unconfigured it faults; right after NEW, NEWS or
RESET it changes nothing the spec specifies (R157). -/
def Obligations.ResetRestartsSession : Prop :=
  decode 0x00000003 = .ok .reset ∧
  (∀ s : State, s.eng.cfg = true → ∃ t : State, exec .reset s = .next t ∧ Responded s t .ok 0 0 [] ∧
    t.eng.h = (if s.eng.w = .w224 then iv224 else iv256) ∧ t.eng.t = 0 ∧ t.eng.nx = 0 ∧ t.eng.nullt = false ∧
    t.eng.w = s.eng.w ∧ t.eng.salt = s.eng.salt ∧ t.eng.cfg = true) ∧
  (∀ s : State, s.eng.cfg = false → ∃ t : State, exec .reset s = .next t ∧
    Responded s t .unconfigured 0 0 [] ∧ t.eng = s.eng) ∧
  (∀ (i : Instr) (s t u : State), constructs i = true ∨ i = .reset →
    exec i s = .next t → t.resps = s.resps ++ [⟨.ok, 0⟩] → exec .reset t = .next u →
    u.eng.cfg = t.eng.cfg ∧ u.eng.SameSession t.eng)

/-- BLOCKSIZE answers 64 in every state, configured or not, and changes no state (R158). -/
def Obligations.BlocksizeAnswers64 : Prop :=
  decode 0x00000004 = .ok .blocksize ∧
  ∀ s : State, exec .blocksize s = .next { s with cmdIn := s.cmdIn.tail, resps := s.resps ++ [⟨.ok, 64⟩] }

/-- SIZE answers W/8, 28 or 32, and changes no state; unconfigured it faults (R159). -/
def Obligations.SizeAnswersDigestBytes : Prop :=
  decode 0x00000005 = .ok .size ∧
  (∀ s : State, s.eng.cfg = true → exec .size s = .next { s with
    cmdIn := s.cmdIn.tail
    resps := s.resps ++ [⟨.ok, if s.eng.w = .w224 then 28 else 32⟩] }) ∧
  (∀ s : State, s.eng.cfg = false → exec .size s = .next { s with
    cmdIn := s.cmdIn.tail, resps := s.resps ++ [⟨.unconfigured, 0⟩] })

/-- The number SIZE answers is the number of bytes SUM emits (R159, R190). -/
def Obligations.SizeIsTheDigestLength : Prop :=
  ∀ s t u : State, s.eng.cfg = true → s.outReady = true → s.eng.nx.val ≤ 63 →
    exec .size s = .next t → exec .sum s = .next u →
    ∃ value : Word, t.resps = s.resps ++ [⟨.ok, value⟩] ∧ u.dataOut.length = s.dataOut.length + value.toNat

/-! ### WRITE -/

/-- BLOCK advances the counter by 512 first and compresses with the advanced counter; ABSORB appends a byte and, on the
64th, compresses the buffer and empties it (R151, R152). -/
def Obligations.AbsorbAppendsOrCompresses : Prop :=
  (∀ (e : Engine) (b : Block),
    e.block b = { e with t := e.t + 512, h := compress e.h e.salt (e.t + 512) e.nullt b }) ∧
  (∀ (e : Engine) (byte : Byte) (h : e.nx.val < 63),
    e.absorb byte = { e with x := e.x.set e.nx.val byte, nx := ⟨e.nx.val + 1, Nat.succ_lt_succ (Nat.lt_succ_of_lt h)⟩ }) ∧
  (∀ (e : Engine) (byte : Byte), e.nx = 63 →
    (e.absorb byte).h = compress e.h e.salt (e.t + 512) e.nullt (e.x.set 63 byte) ∧
    (e.absorb byte).t = e.t + 512 ∧ (e.absorb byte).nx = 0 ∧ (e.absorb byte).x = e.x.set 63 byte ∧
    (e.absorb byte).cfg = e.cfg ∧ (e.absorb byte).w = e.w ∧ (e.absorb byte).salt = e.salt ∧
    (e.absorb byte).nullt = e.nullt)

/-- WRITE absorbs exactly its `len` bytes in order and answers OK; a WRITE of no bytes changes no state; no flag, width,
salt or `cfg` changes (R153). That `nx <= 63` is the invariant EngineInvariantKept. -/
def Obligations.WriteAbsorbsItsBytes : Prop :=
  (∀ word : Word, word &&& 0x000000FF = 0x00000001 → decode word = .ok (.write (word.toNat / 256))) ∧
  (∀ (len : Nat) (s : State), s.eng.cfg = true → s.eng.nx.val ≤ 63 → len ≤ s.dataIn.length →
    ∃ t : State, exec (.write len) s = .next t ∧ Responded s t .ok 0 len [] ∧
      t.eng = (s.dataIn.take len).foldl Engine.absorb s.eng ∧
      t.eng.nullt = s.eng.nullt ∧ t.eng.cfg = true ∧ t.eng.w = s.eng.w ∧ t.eng.salt = s.eng.salt ∧
      (len = 0 → t.eng = s.eng)) ∧
  (∀ (len : Nat) (s : State), s.eng.cfg = false → len ≤ s.dataIn.length →
    ∃ t : State, exec (.write len) s = .next t ∧ Responded s t .unconfigured 0 len [] ∧ t.eng = s.eng)

/-- The effect of a WRITE in closed form: `k = (n + len) / 64` BLOCK steps over the buffered bytes followed by the data,
`nx = (n + len) mod 64`, `t` up by `512 k`, the buffer holding the last `nx` bytes: the spec's own derivation, R161. -/
def Obligations.WriteClosedForm : Prop :=
  ∀ (len : Nat) (s t : State), s.eng.cfg = true → s.eng.nx.val ≤ 63 → len ≤ s.dataIn.length →
    exec (.write len) s = .next t →
    let bytes := s.eng.bufferBytes ++ s.dataIn.take len
    let k := (s.eng.nx.val + len) / 64
    t.eng.nx.val = (s.eng.nx.val + len) % 64 ∧
    t.eng.t = s.eng.t + BitVec.ofNat 64 (512 * k) ∧
    t.eng.bufferBytes = bytes.drop (64 * k) ∧
    t.eng.h = (List.range k).foldl (fun h j =>
      compress h s.eng.salt (s.eng.t + BitVec.ofNat 64 (512 * (j + 1))) s.eng.nullt
        (blockOfBytes ((bytes.drop (64 * j)).take 64))) s.eng.h

/-- Any split of a message into WRITE commands, empty ones included, leaves the same state as one WRITE of the whole
message: the spec's own derivation, R160. -/
def Obligations.WriteStreamingEquivalence : Prop :=
  ∀ (chunks : List (List Byte)) (rest : List Byte) (s : State), s.eng.cfg = true → s.eng.nx.val ≤ 63 →
    s.dataIn = chunks.flatten ++ rest →
    ∃ t u : State, execAll (chunks.map fun c => Instr.write c.length) s = .next t ∧
      exec (.write chunks.flatten.length) s = .next u ∧
      t.eng = u.eng ∧ t.dataIn = u.dataIn ∧ t.dataOut = u.dataOut

/-- Between commands the live state of a session is what its message makes of it: WRITE, SUM, SIZE, BLOCKSIZE and faulted
NEWS in any order leave the state that absorbing the bytes of the WRITEs in order leaves: the spec's own derivation,
R162. -/
def Obligations.SessionStateIsItsMessage : Prop :=
  ∀ (is : List Instr) (s : State), s.eng.cfg = true → s.eng.nx.val ≤ 63 → s.outReady = true →
    (∀ i ∈ is, constructs i = false ∧ i ≠ .reset) → (is.map Instr.dataLen).sum ≤ s.dataIn.length →
    ∃ t : State, execAll is s = .next t ∧ t.eng = s.eng.absorbAll (messageBytes is s.dataIn) ∧
      t.dataIn = s.dataIn.drop (is.map Instr.dataLen).sum

/-- The source's procedure (fill the buffer, compress the remaining full chunks directly, copy the tail) gives the same
`h`, `t`, `nx` and `x[0..nx-1]` as absorbing byte by byte, for every input: the spec's own derivation, R154. -/
def Obligations.DirectWriteSameState : Prop :=
  ∀ (e : Engine) (data : List Byte), e.nx.val ≤ 63 → (e.absorbAll data).SameSession (e.writeDirect data)

/-- Frame of WRITE: of the engine, only `x`, `nx`, `h`, `t` may change; `h` and `t` only if a block completes; a byte of
the buffer changes only at a position `(nx + k) mod 64` that one of the `len` bytes is stored to; no byte is emitted
(R152, R153). -/
def Obligations.WriteFrame : Prop :=
  ∀ (len : Nat) (s t : State), exec (.write len) s = .next t →
    t.eng.cfg = s.eng.cfg ∧ t.eng.w = s.eng.w ∧ t.eng.salt = s.eng.salt ∧ t.eng.nullt = s.eng.nullt ∧
    t.dataOut = s.dataOut ∧ t.outReady = s.outReady ∧ t.freeNext = s.freeNext ∧
    (s.eng.nx.val + len < 64 → t.eng.h = s.eng.h ∧ t.eng.t = s.eng.t) ∧
    ∀ (i : Nat) (h : i < 64), (∀ k < len, (s.eng.nx.val + k) % 64 ≠ i) → t.eng.x[i] = s.eng.x[i]

/-! ### SUM -/

/-- SUM in closed form: the digest is that of the blocks, counters and flags of the table of R198, for every buffer fill;
the live state is not changed: the spec's own derivation, R198. The premise is the invariant EngineInvariantKept. The
folded byte for W = 224 and the flag for every `n = 0` are log entries 12 and 13. -/
def Obligations.SumClosedForm : Prop :=
  ∀ s : State, s.Inv → s.eng.cfg = true → s.outReady = true →
    ∃ t : State, exec .sum s = .next t ∧
      Responded s t .ok 0 0 (digestOf s.eng.w s.eng.closedChain) ∧ t.eng = s.eng

/-- The back-offs cancel the advances: after the length field the snapshot's counter is `L` and its buffer is empty
(R196, R198). -/
def Obligations.SumCounterReturnsToLength : Prop :=
  ∀ e : Engine, e.nx.val ≤ 63 →
    e.finalize.t = e.t + BitVec.ofNat 64 (8 * e.nx.val) ∧ e.finalize.nx = 0 ∧
    e.finalize.w = e.w ∧ e.finalize.salt = e.salt

/-- The digest is the big-endian words `h[0]` to `h[7]`, or to `h[6]` for W = 224: 32 or 28 bytes, the first being
`h[0][31:24]` (R197). -/
def Obligations.DigestIsBigEndianWords : Prop :=
  (∀ h : Chain, digestOf .w256 h =
    bytesBe32 h[0] ++ bytesBe32 h[1] ++ bytesBe32 h[2] ++ bytesBe32 h[3] ++
    bytesBe32 h[4] ++ bytesBe32 h[5] ++ bytesBe32 h[6] ++ bytesBe32 h[7]) ∧
  (∀ h : Chain, digestOf .w224 h =
    bytesBe32 h[0] ++ bytesBe32 h[1] ++ bytesBe32 h[2] ++ bytesBe32 h[3] ++
    bytesBe32 h[4] ++ bytesBe32 h[5] ++ bytesBe32 h[6]) ∧
  (∀ (w : Width) (h : Chain), (digestOf w h).length = w.bits / 8 ∧
    (digestOf w h).head? = some (h[0].extractLsb' 24 8)) ∧
  (∀ s t : State, s.eng.cfg = true → s.outReady = true → s.eng.nx.val ≤ 63 → exec .sum s = .next t →
    t.dataOut = s.dataOut ++ digestOf s.eng.w s.eng.finalize.h)

/-- SUM leaves the live state exactly as it was: writing `a`, SUM, writing `b`, SUM emits at the second SUM what writing
`a ‖ b` and one SUM emits, and two SUMs in a row emit the same bytes: the spec's own derivation, R200. -/
def Obligations.SumIsNonDestructive : Prop :=
  (∀ s t : State, exec .sum s = .next t → t.eng = s.eng) ∧
  (∀ (a b rest : List Byte) (s : State), s.eng.cfg = true → s.eng.nx.val ≤ 63 → s.outReady = true →
    s.dataIn = a ++ b ++ rest →
    ∃ (d1 d2 : List Byte) (t u : State),
      execAll [.write a.length, .sum, .write b.length, .sum] s = .next t ∧ t.dataOut = s.dataOut ++ d1 ++ d2 ∧
      execAll [.write (a.length + b.length), .sum] s = .next u ∧ u.dataOut = s.dataOut ++ d2) ∧
  (∀ s : State, s.eng.cfg = true → s.eng.nx.val ≤ 63 → s.outReady = true →
    ∃ (d : List Byte) (t : State), execAll [.sum, .sum] s = .next t ∧ t.dataOut = s.dataOut ++ d ++ d)

/-- The digest of a session is the BLAKE digest of its message by the padded-message description, at either width, with
without salt, for every message shorter than 2^64 bits: the spec's own derivation, R199. The premise on the length is
U3's. -/
def Obligations.SessionComputesBlakeDigest : Prop :=
  (∀ (w : Width) (m rest : List Byte) (s : State), 8 * m.length < 2 ^ 64 → s.outReady = true →
    s.dataIn = m ++ rest →
    ∃ t : State, execAll [.new w, .write m.length, .sum] s = .next t ∧
      t.dataOut = s.dataOut ++ blakeDigest w (Vector.replicate 4 0) m) ∧
  (∀ (w : Width) (salt m rest : List Byte) (s : State), 8 * m.length < 2 ^ 64 → s.outReady = true →
    salt.length = 16 → s.dataIn = salt ++ m ++ rest →
    ∃ t : State, execAll [.news w 16, .write m.length, .sum] s = .next t ∧
      t.dataOut = s.dataOut ++ blakeDigest w (saltOfBytes salt) m)

/-- Hashing the same message again after RESET gives the same digest, the salt surviving the RESET (T7 item 3, R157,
R200). -/
def Obligations.HashAgainAfterReset : Prop :=
  ∀ (w : Width) (salt m rest : List Byte) (s : State), s.outReady = true → salt.length = 16 →
    s.dataIn = salt ++ m ++ m ++ rest →
    ∃ (d : List Byte) (t : State),
      execAll [.news w 16, .write m.length, .sum, .reset, .write m.length, .sum] s = .next t ∧
      t.dataOut = s.dataOut ++ d ++ d

/-- Frame of SUM, SIZE and BLOCKSIZE: no field of the engine, no data-in byte and no pin changes; SIZE and BLOCKSIZE emit
no byte (R56, R158, R159, R190). -/
def Obligations.ReadOnlyCommandsFrame : Prop :=
  ∀ (i : Instr) (s t : State), i = .sum ∨ i = .size ∨ i = .blocksize → exec i s = .next t →
    t.eng = s.eng ∧ t.dataIn = s.dataIn ∧ t.outReady = s.outReady ∧ t.freeNext = s.freeNext ∧
    (i = .size ∨ i = .blocksize → t.dataOut = s.dataOut)

/-- Frame of NEW, NEWS and RESET: no byte is emitted and no pin changes; NEW and RESET take no data-in byte; RESET
changes neither the width, the salt nor `cfg` (R155 to R157, R37). That a NEWS short of data bytes leaves the state
unchanged, no byte taken yet, is the model's choice (log entry 4). -/
def Obligations.SessionCommandsFrame : Prop :=
  (∀ (w : Width) (s t : State), exec (.new w) s = .next t →
    t.dataIn = s.dataIn ∧ t.dataOut = s.dataOut ∧ t.outReady = s.outReady) ∧
  (∀ (w : Width) (len : Nat) (s t : State), exec (.news w len) s = .next t →
    (t = s ∨ t.dataIn = s.dataIn.drop len) ∧ t.dataOut = s.dataOut ∧ t.outReady = s.outReady ∧
    (len ≠ 16 → t.eng = s.eng)) ∧
  (∀ s t : State, exec .reset s = .next t →
    t.eng.w = s.eng.w ∧ t.eng.salt = s.eng.salt ∧ t.eng.cfg = s.eng.cfg ∧
    t.dataIn = s.dataIn ∧ t.dataOut = s.dataOut ∧ t.outReady = s.outReady)

/-! ### Faults -/

/-- Unconfigured: WRITE, SUM, RESET and SIZE while `cfg = 0` answer (Unconfigured, 0); WRITE's bytes are consumed; no
state changes and nothing is emitted. No other command answers it, and none does once `cfg = 1` (R222). -/
def Obligations.UnconfiguredFault : Prop :=
  (∀ (i : Instr) (s : State), needsSession i = true → s.eng.cfg = false → i.dataLen ≤ s.dataIn.length →
    exec i s = .next { s with
      cmdIn := s.cmdIn.tail, dataIn := s.dataIn.drop i.dataLen, resps := s.resps ++ [⟨.unconfigured, 0⟩] }) ∧
  (∀ (i : Instr) (s t : State) (r : Response), exec i s = .next t → t.resps = s.resps ++ [r] →
    r.status = .unconfigured → needsSession i = true ∧ s.eng.cfg = false)

/-- The table of fault causes: which status a response has, exactly when, how many data-in bytes are consumed, and that
no state changes; at most one status, IllegalCommand before Unconfigured before InvalidSaltLength (R224, R225). -/
def Obligations.FaultCausesTable : Prop :=
  ∀ (s t : State) (r : Response), step s = .next t → t.resps = s.resps ++ [r] →
    ∃ (word : Word) (rest : List Word), s.cmdIn = word :: rest ∧
      (r.status = .illegalCommand ↔ ∃ e, decode word = .error e) ∧
      (r.status = .unconfigured ↔ ∃ i, decode word = .ok i ∧ needsSession i = true ∧ s.eng.cfg = false) ∧
      (r.status = .invalidSaltLength ↔ ∃ w len, decode word = .ok (.news w len) ∧ len ≠ 16) ∧
      (r.status ≠ .ok → t.eng = s.eng ∧ t.dataIn = s.dataIn.drop (announced word))

/-- Taking a fault: the status is the response with value 0, no field of the live state changes, no byte is emitted, the
data-in bytes the word announced are consumed (none for an illegal word), nothing else changes, and the next word is on
the port (R226, R227). -/
def Obligations.FaultChangesNothing : Prop :=
  ∀ (s t : State) (r : Response), step s = .next t → t.resps = s.resps ++ [r] → r.status ≠ .ok →
    r.value = 0 ∧ t = { s with
      cmdIn := s.cmdIn.tail
      dataIn := s.dataIn.drop (announced (s.cmdIn.headD 0))
      resps := s.resps ++ [r] }

/-- The response value: 64 for BLOCKSIZE, W/8 for SIZE, 0 for every other command and for every faulted command (R77);
the digest of SUM is emitted, not answered. -/
def Obligations.ResponseValues : Prop :=
  ∀ (s t : State) (r : Response), step s = .next t → t.resps = s.resps ++ [r] →
    (r.status ≠ .ok → r.value = 0) ∧
    ∀ (word : Word) (rest : List Word) (i : Instr), s.cmdIn = word :: rest → decode word = .ok i → r.status = .ok →
      (i = .blocksize → r.value = 64) ∧
      (i = .size → r.value = if s.eng.w = .w224 then 28 else 32) ∧
      (i ≠ .blocksize → i ≠ .size → r.value = 0) ∧
      (i = .sum → t.dataOut.length = s.dataOut.length + (if s.eng.w = .w224 then 28 else 32))

/-! ### Invariants and whole-machine rules -/

/-- Power-on leaves the engine unconfigured, whatever it was, with the ports as the host left them; the machine right
after reset has no command, no response and no emitted byte, and waits (R250). The values of the other fields are the
model's choice (log entry 2) and no part of this statement; that a power-on event leaves the ports alone is the model's
too (log entry 21), and that waiting is a step to the same state (log entry 5). -/
def Obligations.PowerOnIsUnconfigured : Prop :=
  State.reset.eng.cfg = false ∧ State.reset.cmdIn = [] ∧ State.reset.resps = [] ∧ State.reset.dataOut = [] ∧
  step State.reset = .next State.reset ∧
  (∀ s : State, (powerOn s).eng.cfg = false ∧ (powerOn s).cmdIn = s.cmdIn ∧ (powerOn s).dataIn = s.dataIn ∧
    (powerOn s).dataOut = s.dataOut ∧ (powerOn s).resps = s.resps ∧ (powerOn s).outReady = s.outReady)

/-- The invariant holds right after power-on. -/
def Obligations.EngineInvariantAtReset : Prop := State.reset.Inv ∧ ∀ s : State, (powerOn s).Inv

/-- Every step keeps the invariant of a configured engine: `nx <= 63`, `nullt = 0`, and the counter a multiple of 512
(R25, R26, R27, R36). -/
def Obligations.EngineInvariantKept : Prop := ∀ s t : State, s.Inv → step s = .next t → t.Inv

/-- From a state with the invariant no step faults, and the only refusal is that of bytes with no command (R223, R226,
U6; log entry 9). -/
def Obligations.InvariantRulesOutStops : Prop :=
  ∀ s : State, s.Inv →
    (∀ f : Fault, step s ≠ .fault f) ∧
    (∀ r : Refusal, step s = .refused r → r = .surplusData ∧ s.cmdIn = [] ∧ s.dataIn ≠ [])

/-- Every step keeps the framing of the ports: data-in holds exactly the bytes the presented words announce (R70). -/
def Obligations.FramingKept : Prop := ∀ s t : State, s.Framed → step s = .next t → t.Framed

/-- The commands of a well-framed host all complete: as many steps as there are command words take every word and every
data-in byte, with one response for each word, whatever the words are (R258; the premises are the host's duties of
R254). -/
def Obligations.FramedCommandsComplete : Prop :=
  ∀ s : State, s.Inv → s.Framed → s.outReady = true →
    ∃ t : State, Host.Core.run Sys2Proof.core s.cmdIn.length s = .next t ∧ t.cmdIn = [] ∧ t.dataIn = [] ∧
      t.resps.length = s.resps.length + s.cmdIn.length ∧ t.Inv

/-- `cfg` is cleared by no command, and set only by NEW or NEWS completing with OK; power-on clears it; while `cfg = 0`
every command but NEW, NEWS and BLOCKSIZE has no effect on the engine and answers Unconfigured (R29). -/
def Obligations.ConfiguredFlagRules : Prop :=
  State.reset.eng.cfg = false ∧ (∀ s : State, (powerOn s).eng.cfg = false) ∧
  (∀ (i : Instr) (s t : State), exec i s = .next t → s.eng.cfg = true → t.eng.cfg = true) ∧
  (∀ (i : Instr) (s t : State), constructs i = true → exec i s = .next t → t.resps = s.resps ++ [⟨.ok, 0⟩] →
    t.eng.cfg = true) ∧
  (∀ s t : State, step s = .next t → s.eng.cfg = false → t.eng.cfg = true →
    t.resps = s.resps ++ [⟨.ok, 0⟩] ∧
    ∃ (word : Word) (rest : List Word) (i : Instr),
      s.cmdIn = word :: rest ∧ decode word = .ok i ∧ constructs i = true) ∧
  (∀ (i : Instr) (s t : State), needsSession i = true → s.eng.cfg = false → exec i s = .next t → t ≠ s →
    t.eng = s.eng ∧ t.resps = s.resps ++ [⟨.unconfigured, 0⟩])

/-- The width and the salt change only in NEW, and in NEWS with 16 bytes (R23, R28, R36 items 4 and 5). -/
def Obligations.WidthAndSaltFixedInSession : Prop :=
  ∀ s t : State, step s = .next t → t.eng.w ≠ s.eng.w ∨ t.eng.salt ≠ s.eng.salt →
    ∃ (word : Word) (rest : List Word) (i : Instr),
      s.cmdIn = word :: rest ∧ decode word = .ok i ∧ constructs i = true

/-- What the spec leaves unspecified is unobservable: two machines that differ only in the buffer bytes `x[nx..63]`, and
in every field but `cfg` while `cfg = 0`, give the same responses and bytes after any number of steps, and go on
differing only so (R26, R37, U1, U2). -/
def Obligations.UnspecifiedStateUnobservable : Prop :=
  ∀ (n : Nat) (s s' : State), s.Agrees s' →
    resultsAgree (Host.Core.run Sys2Proof.core n s) (Host.Core.run Sys2Proof.core n s')

/-- SUM, SIZE and BLOCKSIZE are idempotent: repeated at once, each gives the same response and the same bytes; RESET is
idempotent on the state the spec specifies (R56). -/
def Obligations.IdempotentCommands : Prop :=
  (∀ (i : Instr) (s t u : State), i = .sum ∨ i = .size ∨ i = .blocksize →
    exec i s = .next t → exec i t = .next u →
    ∃ (rs : List Response) (out : List Byte), t.resps = s.resps ++ rs ∧ u.resps = t.resps ++ rs ∧
      t.dataOut = s.dataOut ++ out ∧ u.dataOut = t.dataOut ++ out) ∧
  (∀ s t u : State, exec .reset s = .next t → exec .reset t = .next u → u.eng.Agrees t.eng)

/-! ### The compression core -/

/-- The parse of a block: `m[i] = be32(b[4i], b[4i+1], b[4i+2], b[4i+3])`, so that `b[4i]` is bits 31:24 of `m[i]`
(R52, R104). -/
def Obligations.MessageWordsBigEndian : Prop :=
  ∀ (b : Block) (i : Nat) (h : i < 16),
    (parseBlock b)[i].toNat =
      b[4 * i].toNat * 2 ^ 24 + b[4 * i + 1].toNat * 2 ^ 16 + b[4 * i + 2].toNat * 2 ^ 8 + b[4 * i + 3].toNat

/-- Byte-to-word and word-to-byte conversion (R12): `be32`, `bytes_be32`, `bytes_be64`. -/
def Obligations.ByteOrderConversions : Prop :=
  (∀ b0 b1 b2 b3 : Byte,
    (be32 b0 b1 b2 b3).toNat = b0.toNat * 2 ^ 24 + b1.toNat * 2 ^ 16 + b2.toNat * 2 ^ 8 + b3.toNat) ∧
  (∀ w : Word, bytesBe32 w =
    [BitVec.ofNat 8 (w.toNat / 2 ^ 24), BitVec.ofNat 8 (w.toNat / 2 ^ 16), BitVec.ofNat 8 (w.toNat / 2 ^ 8),
      BitVec.ofNat 8 w.toNat]) ∧
  (∀ (l : Counter) (k : Nat), k < 8 →
    (bytesBe64 l).length = 8 ∧ (bytesBe64 l)[k]? = some (BitVec.ofNat 8 (l.toNat / 2 ^ (56 - 8 * k))))

/-- `rotr` is the rotation to the right: bit `i` of the result is bit `(i + n) mod 32` of the operand (R10). The counter's
halves: `t = t1 * 2^32 + t0`, addition and subtraction modulo 2^64, a carry out of t0 increments t1 and a borrow from t0
decrements t1, for every `k`; the borrow is the spec's own derivation in R11. -/
def Obligations.WordAndCounterArithmetic : Prop :=
  (∀ (x : Word) (n i : Nat), 0 < n → n < 32 → i < 32 → (rotr x n).getLsbD i = x.getLsbD ((i + n) % 32)) ∧
  (∀ t : Counter, t.toNat = (hi32 t).toNat * 2 ^ 32 + (lo32 t).toNat) ∧
  (∀ t k : Counter, (t + k).toNat = (t.toNat + k.toNat) % 2 ^ 64 ∧
    (t - k).toNat = (t.toNat + 2 ^ 64 - k.toNat) % 2 ^ 64) ∧
  (∀ t k : Counter,
    lo32 (t + k) = lo32 t + lo32 k ∧
    hi32 (t + k) = hi32 t + hi32 k + (if (lo32 t).toNat + (lo32 k).toNat < 2 ^ 32 then 0 else 1) ∧
    lo32 (t - k) = lo32 t - lo32 k ∧
    hi32 (t - k) = hi32 t - hi32 k - (if (lo32 k).toNat ≤ (lo32 t).toNat then 0 else 1))

/-- The working vector at the start of a compression (R105). -/
def Obligations.WorkingVectorInit : Prop :=
  ∀ (h : Chain) (s : Salt) (t : Counter) (nc : Bool),
    (∀ (i : Nat) (hi : i < 8), (initVector h s t nc)[i] = h[i]) ∧
    (∀ (i : Nat) (hi : i < 4), (initVector h s t nc)[8 + i] = s[i] ^^^ constC[i]) ∧
    (nc = true → ∀ (i : Nat) (hi : i < 4), (initVector h s t nc)[12 + i] = constC[4 + i]) ∧
    (nc = false →
      (initVector h s t nc)[12] = constC[4] ^^^ lo32 t ∧ (initVector h s t nc)[13] = constC[5] ^^^ lo32 t ∧
      (initVector h s t nc)[14] = constC[6] ^^^ hi32 t ∧ (initVector h s t nc)[15] = constC[7] ^^^ hi32 t)

/-- Round `r` is the eight G applications in order (R108) with the permutation `SIGMA[r mod 10]`, so rounds 10 to 13 reuse
permutations 0 to 3 (R103); each row of the table is a permutation of 0 to 15: the spec's own derivation in R102. -/
def Obligations.RoundPermutationCycle : Prop :=
  (∀ (m v : Vec16) (r : Nat),
    coreRound m v r = (List.finRange 8).foldl (gApply m (sigma[r % 10]'(Nat.mod_lt r (by decide)))) v) ∧
  (∀ (m v : Vec16) (r : Nat), coreRound m v (r + 10) = coreRound m v r) ∧
  (∀ (k : Nat) (h : k < 10), sigma[k].toList.Nodup)

/-- One G application rewrites the four words its quadruple names, by the eight assignments of R106, with message words
and constants crossed as R107 says, and leaves the other twelve words alone. -/
def Obligations.GRewritesItsFourWords : Prop :=
  ∀ (m : Vec16) (perm : Vector (Fin 16) 16) (v : Vec16) (i : Fin 8),
    let q := gIdx[i]
    let mx := m[perm[2 * i.val]]
    let my := m[perm[2 * i.val + 1]]
    let cx := constC[perm[2 * i.val]]
    let cy := constC[perm[2 * i.val + 1]]
    let v' := gApply m perm v i
    (∃ a1 d1 c1 b1 : Word,
      a1 = v[q.a] + v[q.b] + (mx ^^^ cy) ∧ d1 = rotr (v[q.d] ^^^ a1) 16 ∧
      c1 = v[q.c] + d1 ∧ b1 = rotr (v[q.b] ^^^ c1) 12 ∧
      v'[q.a] = a1 + b1 + (my ^^^ cx) ∧ v'[q.d] = rotr (d1 ^^^ v'[q.a]) 8 ∧
      v'[q.c] = c1 + v'[q.d] ∧ v'[q.b] = rotr (b1 ^^^ v'[q.c]) 7) ∧
    ∀ j : Fin 16, j ≠ q.a → j ≠ q.b → j ≠ q.c → j ≠ q.d → v'[j] = v[j]

/-- Within the column step, and within the diagonal step, the four G applications may run in any order with the same
result (R108). -/
def Obligations.ColumnAndDiagonalStepsCommute : Prop :=
  ∀ (m v : Vec16) (r : Nat) (columns diagonals : List (Fin 8)),
    columns.Perm [0, 1, 2, 3] → diagonals.Perm [4, 5, 6, 7] →
    (columns ++ diagonals).foldl (gApply m (roundPerm r)) v = coreRound m v r

/-- The feed-forward in the two loops of R110 and in its equivalent form, on the working vector after the 14 rounds. -/
def Obligations.FeedForwardWords : Prop :=
  (∀ (h : Chain) (s : Salt) (t : Counter) (nc : Bool) (b : Block),
    compress h s t nc b =
      feedForward h ((List.range 14).foldl (coreRound (parseBlock b)) (initVector h s t nc)) s) ∧
  (∀ (h : Chain) (v : Vec16) (s : Salt),
    (∀ (i : Nat) (hi : i < 4), (feedForward h v s)[i] = h[i] ^^^ v[i] ^^^ v[i + 8] ^^^ s[i]) ∧
    (∀ (i : Nat) (hi : i < 4), (feedForward h v s)[i + 4] = h[i + 4] ^^^ v[i + 4] ^^^ v[i + 12] ^^^ s[i]) ∧
    (∀ (i : Nat) (hi : i < 8), (feedForward h v s)[i] =
      h[i] ^^^ v[i] ^^^ v[i + 8] ^^^ s[i % 4]'(Nat.mod_lt i (by decide))))

/-- A compression without the counter gives the same result as one with the counter 0, whatever counter was passed
(R111). -/
def Obligations.NoCounterIsZeroCounter : Prop :=
  ∀ (h : Chain) (s : Salt) (t : Counter) (b : Block), compress h s t true b = compress h s 0 false b

/-! ### Platform -/

/-- An event on one engine of a platform changes no other engine, and which engines there are does not change; a
platform has at least one engine and each leaves power-on unconfigured (R58, R234). R58 speaks of commands: that the
power-on event in mid-run, which is one of the events, reaches one engine alone is the model's choice (log entry 26). -/
def Obligations.EnginesShareNoState : Prop :=
  (∀ (p p' : Platform) (ev : PlatformEvent), p.step ev = .next p' →
    p'.engines.length = p.engines.length ∧
    ∀ j : Nat, j ≠ ev.engine → p'.engines[j]? = p.engines[j]?) ∧
  1 ≤ Platform.reset.engines.length ∧ (∀ s ∈ Platform.reset.engines, s.eng.cfg = false)

/-- Events of different engines may happen in either order with the same result (R58). R58 speaks of commands: that the
power-on event in mid-run, which is one of the events, reaches one engine alone, so that it commutes with the events of
the others, is the model's choice (log entry 26). -/
def Obligations.EnginesAreUnordered : Prop :=
  ∀ (p p1 p12 : Platform) (ev1 ev2 : PlatformEvent), ev1.engine ≠ ev2.engine →
    p.step ev1 = .next p1 → p1.step ev2 = .next p12 →
    ∃ p2 : Platform, p.step ev2 = .next p2 ∧ p2.step ev1 = .next p12

/-- Several hosts on one engine: under every interleaving of their whole commands, each command completes with its own
response, and nothing is left on the ports (R59, R258, U8). -/
def Obligations.EveryInterleavingCompletes : Prop :=
  ∀ (hosts : List (List Frame)) (order : List Frame) (s : State), Interleaves hosts order →
    (∀ fs ∈ hosts, ∀ f ∈ fs, f.bytes.length = announced f.word) →
    s.Inv → s.cmdIn = [] → s.dataIn = [] → s.outReady = true →
    ∃ t : State, Host.Core.run Sys2Proof.core order.length (presentAll order s) = .next t ∧
      t.cmdIn = [] ∧ t.dataIn = [] ∧ t.Inv ∧
      t.resps.length = s.resps.length + (hosts.map List.length).sum
end

