-- ==== Sys2Proof/Laws/State.lean ====
section
/-! SUPPORT. The small lemmas of State and Engine: one per field per update, each true by rfl, so that no later proof
unfolds a record update. -/

namespace Sys2Proof.Machine

/-! ### `Engine.block` -/

@[simp] theorem Engine.block_cfg (e : Engine) (b : Block) : (e.block b).cfg = e.cfg := rfl
@[simp] theorem Engine.block_w (e : Engine) (b : Block) : (e.block b).w = e.w := rfl
@[simp] theorem Engine.block_h (e : Engine) (b : Block) :
    (e.block b).h = compress e.h e.salt (e.t + 512) e.nullt b := rfl
@[simp] theorem Engine.block_salt (e : Engine) (b : Block) : (e.block b).salt = e.salt := rfl
@[simp] theorem Engine.block_t (e : Engine) (b : Block) : (e.block b).t = e.t + 512 := rfl
@[simp] theorem Engine.block_x (e : Engine) (b : Block) : (e.block b).x = e.x := rfl
@[simp] theorem Engine.block_nx (e : Engine) (b : Block) : (e.block b).nx = e.nx := rfl
@[simp] theorem Engine.block_nullt (e : Engine) (b : Block) : (e.block b).nullt = e.nullt := rfl

/-! ### `Engine.push` -/

@[simp] theorem Engine.push_cfg (e : Engine) (b : Byte) : (e.push b).cfg = e.cfg := rfl
@[simp] theorem Engine.push_w (e : Engine) (b : Byte) : (e.push b).w = e.w := rfl
@[simp] theorem Engine.push_h (e : Engine) (b : Byte) : (e.push b).h = e.h := rfl
@[simp] theorem Engine.push_salt (e : Engine) (b : Byte) : (e.push b).salt = e.salt := rfl
@[simp] theorem Engine.push_t (e : Engine) (b : Byte) : (e.push b).t = e.t := rfl
@[simp] theorem Engine.push_x (e : Engine) (b : Byte) : (e.push b).x = e.x.setIfInBounds e.nx.val b := rfl
@[simp] theorem Engine.push_nx (e : Engine) (b : Byte) : (e.push b).nx = e.nx + 1 := rfl
@[simp] theorem Engine.push_nullt (e : Engine) (b : Byte) : (e.push b).nullt = e.nullt := rfl

/-! ### `Engine.backOff` -/

@[simp] theorem Engine.backOff_cfg (e : Engine) (k : Counter) : (e.backOff k).cfg = e.cfg := rfl
@[simp] theorem Engine.backOff_w (e : Engine) (k : Counter) : (e.backOff k).w = e.w := rfl
@[simp] theorem Engine.backOff_h (e : Engine) (k : Counter) : (e.backOff k).h = e.h := rfl
@[simp] theorem Engine.backOff_salt (e : Engine) (k : Counter) : (e.backOff k).salt = e.salt := rfl
@[simp] theorem Engine.backOff_t (e : Engine) (k : Counter) : (e.backOff k).t = e.t - k := rfl
@[simp] theorem Engine.backOff_x (e : Engine) (k : Counter) : (e.backOff k).x = e.x := rfl
@[simp] theorem Engine.backOff_nx (e : Engine) (k : Counter) : (e.backOff k).nx = e.nx := rfl
@[simp] theorem Engine.backOff_nullt (e : Engine) (k : Counter) : (e.backOff k).nullt = e.nullt := rfl

/-! ### `Engine.setNullt` -/

@[simp] theorem Engine.setNullt_cfg (e : Engine) : (e.setNullt).cfg = e.cfg := rfl
@[simp] theorem Engine.setNullt_w (e : Engine) : (e.setNullt).w = e.w := rfl
@[simp] theorem Engine.setNullt_h (e : Engine) : (e.setNullt).h = e.h := rfl
@[simp] theorem Engine.setNullt_salt (e : Engine) : (e.setNullt).salt = e.salt := rfl
@[simp] theorem Engine.setNullt_t (e : Engine) : (e.setNullt).t = e.t := rfl
@[simp] theorem Engine.setNullt_x (e : Engine) : (e.setNullt).x = e.x := rfl
@[simp] theorem Engine.setNullt_nx (e : Engine) : (e.setNullt).nx = e.nx := rfl
@[simp] theorem Engine.setNullt_nullt (e : Engine) : (e.setNullt).nullt = true := rfl

/-! ### `respond` -/

@[simp] theorem respond_eng (st : Status) (v : Word) (s : State) : (respond st v s).eng = s.eng := rfl
@[simp] theorem respond_cmdIn (st : Status) (v : Word) (s : State) : (respond st v s).cmdIn = s.cmdIn.tail := rfl
@[simp] theorem respond_dataIn (st : Status) (v : Word) (s : State) : (respond st v s).dataIn = s.dataIn := rfl
@[simp] theorem respond_dataOut (st : Status) (v : Word) (s : State) : (respond st v s).dataOut = s.dataOut := rfl
@[simp] theorem respond_resps (st : Status) (v : Word) (s : State) :
    (respond st v s).resps = s.resps ++ [⟨st, v⟩] := rfl
@[simp] theorem respond_outReady (st : Status) (v : Word) (s : State) : (respond st v s).outReady = s.outReady := rfl
@[simp] theorem respond_freeNext (st : Status) (v : Word) (s : State) : (respond st v s).freeNext = s.freeNext := rfl

/-! ### `raise` -/

@[simp] theorem raise_eng (st : Status) (s : State) : (raise st s).eng = s.eng := rfl
@[simp] theorem raise_cmdIn (st : Status) (s : State) : (raise st s).cmdIn = s.cmdIn.tail := rfl
@[simp] theorem raise_dataIn (st : Status) (s : State) : (raise st s).dataIn = s.dataIn := rfl
@[simp] theorem raise_dataOut (st : Status) (s : State) : (raise st s).dataOut = s.dataOut := rfl
@[simp] theorem raise_resps (st : Status) (s : State) : (raise st s).resps = s.resps ++ [⟨st, 0⟩] := rfl
@[simp] theorem raise_outReady (st : Status) (s : State) : (raise st s).outReady = s.outReady := rfl
@[simp] theorem raise_freeNext (st : Status) (s : State) : (raise st s).freeNext = s.freeNext := rfl

/-! ### `consume` -/

@[simp] theorem consume_eng (len : Nat) (s : State) : (consume len s).eng = s.eng := rfl
@[simp] theorem consume_cmdIn (len : Nat) (s : State) : (consume len s).cmdIn = s.cmdIn := rfl
@[simp] theorem consume_dataIn (len : Nat) (s : State) : (consume len s).dataIn = s.dataIn.drop len := rfl
@[simp] theorem consume_dataOut (len : Nat) (s : State) : (consume len s).dataOut = s.dataOut := rfl
@[simp] theorem consume_resps (len : Nat) (s : State) : (consume len s).resps = s.resps := rfl
@[simp] theorem consume_outReady (len : Nat) (s : State) : (consume len s).outReady = s.outReady := rfl
@[simp] theorem consume_freeNext (len : Nat) (s : State) : (consume len s).freeNext = s.freeNext := rfl

/-! ### `setEngine` -/

@[simp] theorem setEngine_eng (e : Engine) (s : State) : (setEngine e s).eng = e := rfl
@[simp] theorem setEngine_cmdIn (e : Engine) (s : State) : (setEngine e s).cmdIn = s.cmdIn := rfl
@[simp] theorem setEngine_dataIn (e : Engine) (s : State) : (setEngine e s).dataIn = s.dataIn := rfl
@[simp] theorem setEngine_dataOut (e : Engine) (s : State) : (setEngine e s).dataOut = s.dataOut := rfl
@[simp] theorem setEngine_resps (e : Engine) (s : State) : (setEngine e s).resps = s.resps := rfl
@[simp] theorem setEngine_outReady (e : Engine) (s : State) : (setEngine e s).outReady = s.outReady := rfl
@[simp] theorem setEngine_freeNext (e : Engine) (s : State) : (setEngine e s).freeNext = s.freeNext := rfl

/-! ### `emit` -/

@[simp] theorem emit_eng (bytes : List Byte) (s : State) : (emit bytes s).eng = s.eng := rfl
@[simp] theorem emit_cmdIn (bytes : List Byte) (s : State) : (emit bytes s).cmdIn = s.cmdIn := rfl
@[simp] theorem emit_dataIn (bytes : List Byte) (s : State) : (emit bytes s).dataIn = s.dataIn := rfl
@[simp] theorem emit_dataOut (bytes : List Byte) (s : State) : (emit bytes s).dataOut = s.dataOut ++ bytes := rfl
@[simp] theorem emit_resps (bytes : List Byte) (s : State) : (emit bytes s).resps = s.resps := rfl
@[simp] theorem emit_outReady (bytes : List Byte) (s : State) : (emit bytes s).outReady = s.outReady := rfl
@[simp] theorem emit_freeNext (bytes : List Byte) (s : State) : (emit bytes s).freeNext = s.freeNext := rfl

/-! ### `restartSession` -/

@[simp] theorem restartSession_eng (s : State) :
    (restartSession s).eng = { s.eng with h := iv s.eng.w, t := 0, x := freeBuffer s.freeNext, nx := 0, nullt := false } := rfl
@[simp] theorem restartSession_cmdIn (s : State) : (restartSession s).cmdIn = s.cmdIn := rfl
@[simp] theorem restartSession_dataIn (s : State) : (restartSession s).dataIn = s.dataIn := rfl
@[simp] theorem restartSession_dataOut (s : State) : (restartSession s).dataOut = s.dataOut := rfl
@[simp] theorem restartSession_resps (s : State) : (restartSession s).resps = s.resps := rfl
@[simp] theorem restartSession_outReady (s : State) : (restartSession s).outReady = s.outReady := rfl
@[simp] theorem restartSession_freeNext (s : State) : (restartSession s).freeNext = s.freeNext + 64 := rfl

/-! ### `openSession` -/

@[simp] theorem openSession_eng (w : Width) (salt : Salt) (s : State) :
    (openSession w salt s).eng = ⟨true, w, iv w, salt, 0, freeBuffer s.freeNext, 0, false⟩ := rfl
@[simp] theorem openSession_cmdIn (w : Width) (salt : Salt) (s : State) :
    (openSession w salt s).cmdIn = s.cmdIn := rfl
@[simp] theorem openSession_dataIn (w : Width) (salt : Salt) (s : State) :
    (openSession w salt s).dataIn = s.dataIn := rfl
@[simp] theorem openSession_dataOut (w : Width) (salt : Salt) (s : State) :
    (openSession w salt s).dataOut = s.dataOut := rfl
@[simp] theorem openSession_resps (w : Width) (salt : Salt) (s : State) :
    (openSession w salt s).resps = s.resps := rfl
@[simp] theorem openSession_outReady (w : Width) (salt : Salt) (s : State) :
    (openSession w salt s).outReady = s.outReady := rfl
@[simp] theorem openSession_freeNext (w : Width) (salt : Salt) (s : State) :
    (openSession w salt s).freeNext = s.freeNext + 64 := rfl

/-! ### `deliver` -/

@[simp] theorem deliver_eng (bytes : List Byte) (s : State) : (deliver bytes s).eng = s.eng := rfl
@[simp] theorem deliver_cmdIn (bytes : List Byte) (s : State) : (deliver bytes s).cmdIn = s.cmdIn := rfl
@[simp] theorem deliver_dataIn (bytes : List Byte) (s : State) : (deliver bytes s).dataIn = s.dataIn ++ bytes := rfl
@[simp] theorem deliver_dataOut (bytes : List Byte) (s : State) : (deliver bytes s).dataOut = s.dataOut := rfl
@[simp] theorem deliver_resps (bytes : List Byte) (s : State) : (deliver bytes s).resps = s.resps := rfl
@[simp] theorem deliver_outReady (bytes : List Byte) (s : State) : (deliver bytes s).outReady = s.outReady := rfl
@[simp] theorem deliver_freeNext (bytes : List Byte) (s : State) : (deliver bytes s).freeNext = s.freeNext := rfl

/-! ### `present` -/

@[simp] theorem present_eng (word : Word) (bytes : List Byte) (s : State) : (present word bytes s).eng = s.eng := rfl
@[simp] theorem present_cmdIn (word : Word) (bytes : List Byte) (s : State) :
    (present word bytes s).cmdIn = s.cmdIn ++ [word] := rfl
@[simp] theorem present_dataIn (word : Word) (bytes : List Byte) (s : State) :
    (present word bytes s).dataIn = s.dataIn ++ bytes := rfl
@[simp] theorem present_dataOut (word : Word) (bytes : List Byte) (s : State) :
    (present word bytes s).dataOut = s.dataOut := rfl
@[simp] theorem present_resps (word : Word) (bytes : List Byte) (s : State) :
    (present word bytes s).resps = s.resps := rfl
@[simp] theorem present_outReady (word : Word) (bytes : List Byte) (s : State) :
    (present word bytes s).outReady = s.outReady := rfl
@[simp] theorem present_freeNext (word : Word) (bytes : List Byte) (s : State) :
    (present word bytes s).freeNext = s.freeNext := rfl

/-! ### `powerOn` -/

@[simp] theorem powerOn_eng (s : State) : (powerOn s).eng = Engine.powerOn := rfl
@[simp] theorem powerOn_cmdIn (s : State) : (powerOn s).cmdIn = s.cmdIn := rfl
@[simp] theorem powerOn_dataIn (s : State) : (powerOn s).dataIn = s.dataIn := rfl
@[simp] theorem powerOn_dataOut (s : State) : (powerOn s).dataOut = s.dataOut := rfl
@[simp] theorem powerOn_resps (s : State) : (powerOn s).resps = s.resps := rfl
@[simp] theorem powerOn_outReady (s : State) : (powerOn s).outReady = s.outReady := rfl
@[simp] theorem powerOn_freeNext (s : State) : (powerOn s).freeNext = s.freeNext := rfl

/-! ### `placeCommand` -/

@[simp] theorem placeCommand_eng (word : Word) (bytes : List Byte) (s : State) :
    (placeCommand word bytes s).eng = s.eng := rfl
@[simp] theorem placeCommand_cmdIn (word : Word) (bytes : List Byte) (s : State) :
    (placeCommand word bytes s).cmdIn = word :: s.cmdIn := rfl
@[simp] theorem placeCommand_dataIn (word : Word) (bytes : List Byte) (s : State) :
    (placeCommand word bytes s).dataIn = bytes ++ s.dataIn := rfl
@[simp] theorem placeCommand_dataOut (word : Word) (bytes : List Byte) (s : State) :
    (placeCommand word bytes s).dataOut = s.dataOut := rfl
@[simp] theorem placeCommand_resps (word : Word) (bytes : List Byte) (s : State) :
    (placeCommand word bytes s).resps = s.resps := rfl
@[simp] theorem placeCommand_outReady (word : Word) (bytes : List Byte) (s : State) :
    (placeCommand word bytes s).outReady = s.outReady := rfl
@[simp] theorem placeCommand_freeNext (word : Word) (bytes : List Byte) (s : State) :
    (placeCommand word bytes s).freeNext = s.freeNext := rfl

end Sys2Proof.Machine
end

