-- ==== Sys2Proof/Laws/Absorb.lean ====
section
/-! SUPPORT. ABSORB, byte by byte and for whole strings: what the buffer holds, when a block is compressed, what stays
(41_stream.md R151 to R153). -/

namespace Sys2Proof.Machine

/-! ### Blocks and the bytes of the buffer -/

theorem blockOfBytes_getElem (l : List Byte) (i : Nat) (h : i < 64) : (blockOfBytes l)[i] = l.getD i 0 := by
  simp [blockOfBytes]

theorem blockOfBytes_toList (b : Block) : blockOfBytes b.toList = b := by
  ext i h
  rw [blockOfBytes_getElem _ _ h]
  simp [List.getD_eq_getElem?_getD, h]

theorem bufferBytes_length (e : Engine) (h : e.nx.val ≤ 63) : e.bufferBytes.length = e.nx.val := by
  simp [Engine.bufferBytes]; omega

theorem bufferBytes_eq_of_sameBytes {e e' : Engine} (hn : e.nx = e'.nx) (h : sameBytes e.nx.val e.x e'.x) :
    e.bufferBytes = e'.bufferBytes := by
  apply List.ext_getElem
  · simp [Engine.bufferBytes, hn]
  · intro i h1 h2
    have h3 : i < e.nx.val ∧ i < 64 := by simpa [Engine.bufferBytes] using h1
    simpa [Engine.bufferBytes] using h i h3.2 h3.1

theorem sameBytes_of_bufferBytes {e e' : Engine} (hn : e.nx = e'.nx) (h : e.bufferBytes = e'.bufferBytes) :
    sameBytes e.nx.val e.x e'.x := by
  intro i h64 hi
  have h1 := congrArg (fun l => l[i]?) h
  have hi' : i < e'.nx.val := hn ▸ hi
  simpa [Engine.bufferBytes, hi, hi', h64] using h1

/-! ### One byte -/

theorem push_nx_val (e : Engine) (b : Byte) (h : e.nx.val ≤ 63) : (e.push b).nx.val = e.nx.val + 1 := by
  rw [Engine.push_nx, Fin.val_add]
  show (e.nx.val + 1) % 65 = _
  omega

theorem push_bufferBytes (e : Engine) (b : Byte) (h : e.nx.val ≤ 63) :
    (e.push b).bufferBytes = e.bufferBytes ++ [b] := by
  have hl : e.nx.val < e.x.toList.length := by simp; omega
  rw [Engine.bufferBytes, push_nx_val e b h, Engine.push_x, Vector.toList_setIfInBounds]
  simp only [Engine.bufferBytes]
  rw [List.take_add_one, List.getElem?_set_self hl, List.take_set_of_le (Nat.le_refl _)]
  rfl

theorem absorb_of_lt (e : Engine) (b : Byte) (h : e.nx.val < 63) : e.absorb b = e.push b := by
  rw [Engine.absorb, if_neg]
  intro h'
  have := congrArg Fin.val h'
  rw [push_nx_val e b (by omega)] at this
  simp at this; omega

theorem absorb_of_full (e : Engine) (b : Byte) (h : e.nx.val = 63) :
    e.absorb b = { (e.push b).block (e.push b).x with nx := 0 } := by
  rw [Engine.absorb, if_pos]
  apply Fin.ext
  rw [push_nx_val e b (by omega), h]
  rfl

theorem push_x_of_full (e : Engine) (b : Byte) (h : e.nx.val = 63) :
    (e.push b).x = blockOfBytes (e.bufferBytes ++ [b]) := by
  rw [← push_bufferBytes e b (by omega), Engine.bufferBytes, push_nx_val e b (by omega), h,
    List.take_of_length_le (by simp), blockOfBytes_toList]

@[simp] theorem absorb_cfg (e : Engine) (b : Byte) : (e.absorb b).cfg = e.cfg := by
  unfold Engine.absorb; split <;> rfl

@[simp] theorem absorb_w (e : Engine) (b : Byte) : (e.absorb b).w = e.w := by
  unfold Engine.absorb; split <;> rfl

@[simp] theorem absorb_salt (e : Engine) (b : Byte) : (e.absorb b).salt = e.salt := by
  unfold Engine.absorb; split <;> rfl

@[simp] theorem absorb_nullt (e : Engine) (b : Byte) : (e.absorb b).nullt = e.nullt := by
  unfold Engine.absorb; split <;> rfl

/-! ### Many bytes -/

@[simp] theorem absorbAll_nil (e : Engine) : e.absorbAll [] = e := rfl

@[simp] theorem absorbAll_cons (e : Engine) (b : Byte) (l : List Byte) :
    e.absorbAll (b :: l) = (e.absorb b).absorbAll l := rfl

theorem absorbAll_append (e : Engine) (l l' : List Byte) :
    e.absorbAll (l ++ l') = (e.absorbAll l).absorbAll l' := List.foldl_append

@[simp] theorem absorbAll_cfg (e : Engine) (l : List Byte) : (e.absorbAll l).cfg = e.cfg := by
  induction l generalizing e <;> simp_all

@[simp] theorem absorbAll_w (e : Engine) (l : List Byte) : (e.absorbAll l).w = e.w := by
  induction l generalizing e <;> simp_all

@[simp] theorem absorbAll_salt (e : Engine) (l : List Byte) : (e.absorbAll l).salt = e.salt := by
  induction l generalizing e <;> simp_all

@[simp] theorem absorbAll_nullt (e : Engine) (l : List Byte) : (e.absorbAll l).nullt = e.nullt := by
  induction l generalizing e <;> simp_all

/-- Bytes that do not complete a block are only appended to the buffer. -/
theorem absorbAll_of_lt (e : Engine) (l : List Byte) (h : e.nx.val + l.length < 64) :
    (e.absorbAll l).h = e.h ∧ (e.absorbAll l).t = e.t ∧ (e.absorbAll l).nx.val = e.nx.val + l.length ∧
      (e.absorbAll l).bufferBytes = e.bufferBytes ++ l := by
  induction l generalizing e with
  | nil => simp
  | cons b l ih =>
    simp only [List.length_cons] at h
    have hp := push_nx_val e b (by omega)
    rw [absorbAll_cons, absorb_of_lt e b (by omega)]
    obtain ⟨h1, h2, h3, h4⟩ := ih (e.push b) (by omega)
    refine ⟨h1, h2, ?_, ?_⟩
    · simp only [List.length_cons]; omega
    · rw [h4, push_bufferBytes e b (by omega), List.append_assoc]; rfl

/-- Bytes that just complete the block compress it once, with the counter advanced by 512, and empty the buffer. -/
theorem absorbAll_of_eq (e : Engine) (l : List Byte) (hn : e.nx.val ≤ 63) (h : e.nx.val + l.length = 64) :
    (e.absorbAll l).h = compress e.h e.salt (e.t + 512) e.nullt (blockOfBytes (e.bufferBytes ++ l)) ∧
      (e.absorbAll l).t = e.t + 512 ∧ (e.absorbAll l).nx = 0 := by
  obtain ⟨b, l', rfl⟩ : ∃ b l', l = l' ++ [b] := by
    have : l ≠ [] := by rintro rfl; simp at h; omega
    exact ⟨l.getLast this, l.dropLast, (List.dropLast_append_getLast this).symm⟩
  simp only [List.length_append, List.length_cons, List.length_nil] at h
  obtain ⟨h1, h2, h3, h4⟩ := absorbAll_of_lt e l' (by omega)
  rw [absorbAll_append, absorbAll_cons, absorbAll_nil, absorb_of_full _ _ (by omega)]
  refine ⟨?_, ?_, rfl⟩
  · have hx := push_x_of_full (e.absorbAll l') b (by omega)
    rw [h4, Engine.push_x, List.append_assoc] at hx
    simp [h1, h2, hx]
  · simp [h2]

/-! ### The buffer of the direct WRITE -/

@[simp] theorem Engine.fillBuffer_cfg (e : Engine) (tail : List Byte) : (e.fillBuffer tail).cfg = e.cfg := by
  simp only [Engine.fillBuffer]

@[simp] theorem Engine.fillBuffer_w (e : Engine) (tail : List Byte) : (e.fillBuffer tail).w = e.w := by
  simp only [Engine.fillBuffer]

@[simp] theorem Engine.fillBuffer_h (e : Engine) (tail : List Byte) : (e.fillBuffer tail).h = e.h := by
  simp only [Engine.fillBuffer]

@[simp] theorem Engine.fillBuffer_salt (e : Engine) (tail : List Byte) : (e.fillBuffer tail).salt = e.salt := by
  simp only [Engine.fillBuffer]

@[simp] theorem Engine.fillBuffer_t (e : Engine) (tail : List Byte) : (e.fillBuffer tail).t = e.t := by
  simp only [Engine.fillBuffer]

@[simp] theorem Engine.fillBuffer_nullt (e : Engine) (tail : List Byte) : (e.fillBuffer tail).nullt = e.nullt := by
  simp only [Engine.fillBuffer]

@[simp] theorem Engine.fillBuffer_x (e : Engine) (tail : List Byte) : (e.fillBuffer tail).x = blockOfBytes tail := by
  simp only [Engine.fillBuffer]

theorem Engine.fillBuffer_nx_val (e : Engine) (tail : List Byte) (h : tail.length < 64) :
    (e.fillBuffer tail).nx.val = tail.length := by
  simp only [Engine.fillBuffer]
  exact Nat.mod_eq_of_lt (by omega)

end Sys2Proof.Machine
end

