-- ==== Sys2Proof/Laws/Encoding.lean ====
section
/-! SUPPORT. The fields of a packed command word, and a word as its fields (30_encoding.md R71). -/

namespace Sys2Proof
@[simp] theorem fieldOpc_packWord (opc : BitVec 4) (w224 sp : Bool) (len : Nat) :
    fieldOpc (packWord opc w224 sp len) = opc := by
  apply BitVec.eq_of_getLsbD_eq
  intro i hi
  interval_cases i <;> simp [fieldOpc, packWord]

@[simp] theorem fieldRsv_packWord (opc : BitVec 4) (w224 sp : Bool) (len : Nat) :
    fieldRsv (packWord opc w224 sp len) = 0 := by
  apply BitVec.eq_of_getLsbD_eq
  intro i hi
  interval_cases i <;> simp [fieldRsv, packWord]

@[simp] theorem fieldSp_packWord (opc : BitVec 4) (w224 sp : Bool) (len : Nat) :
    fieldSp (packWord opc w224 sp len) = sp := by
  simp [fieldSp, packWord]

@[simp] theorem fieldW224_packWord (opc : BitVec 4) (w224 sp : Bool) (len : Nat) :
    fieldW224 (packWord opc w224 sp len) = w224 := by
  simp [fieldW224, packWord]

theorem testBit_fieldLen (word : Word) (i : Nat) :
    (fieldLen word).testBit i = (decide (i < 24) && word.getLsbD (8 + i)) := by
  rw [fieldLen, BitVec.testBit_toNat, BitVec.getLsbD_extractLsb']

@[simp] theorem fieldLen_packWord (opc : BitVec 4) (w224 sp : Bool) (len : Nat) :
    fieldLen (packWord opc w224 sp len) = len % 2 ^ 24 := by
  apply Nat.eq_of_testBit_eq
  intro i
  rw [testBit_fieldLen, Nat.testBit_mod_two_pow]
  by_cases hi : i < 24
  · have h1 : ∀ (b : Bool) (k : Nat), k ≤ 7 → ((BitVec.ofBool b).setWidth 32 <<< k).getLsbD (8 + i) = false := by
      intro b k hk
      have : ¬ 8 + i - k < 1 := by omega
      simp only [BitVec.getLsbD_shiftLeft, BitVec.getLsbD_setWidth, BitVec.getLsbD_ofBool]
      have h0 : ¬ 8 + i - k = 0 := by omega
      simp [h0]
    have h2 : opc.getLsbD (8 + i) = false := BitVec.getLsbD_of_ge _ _ (by omega)
    have h3 : (BitVec.ofNat 32 len <<< 8).getLsbD (8 + i) = len.testBit i := by
      rw [BitVec.getLsbD_shiftLeft, BitVec.getLsbD_ofNat]
      have h4 : 8 + i < 32 := by omega
      have h5 : i < 32 := by omega
      simp [h4, h5]
    rw [packWord, BitVec.getLsbD_or, BitVec.getLsbD_or, BitVec.getLsbD_or, h1 _ 5 (by omega), h1 _ 4 (by omega), h3,
      BitVec.getLsbD_setWidth, h2]
    simp
  · simp [hi]

theorem fieldHigh_packWord_zero (opc : BitVec 4) : fieldHigh (packWord opc false false 0) = 0 := by
  revert opc; decide

@[simp] theorem widthOfBit_bitOfWidth (w : Width) : widthOfBit (bitOfWidth w) = w := by cases w <;> rfl

@[simp] theorem bitOfWidth_widthOfBit (b : Bool) : bitOfWidth (widthOfBit b) = b := by cases b <;> rfl

theorem fieldLen_lt (word : Word) : fieldLen word < 2 ^ 24 := (word.extractLsb' 8 24).isLt

theorem fieldLen_eq (word : Word) : fieldLen word = word.toNat / 256 := by
  have := word.isLt
  simp [fieldLen, Nat.shiftRight_eq_div_pow]
  omega

/-- A word is its fields. -/
theorem packWord_fields (word : Word) (h : fieldRsv word = 0) :
    packWord (fieldOpc word) (fieldW224 word) (fieldSp word) (fieldLen word) = word := by
  apply BitVec.eq_of_getLsbD_eq
  intro i hi
  have hf := testBit_fieldLen (packWord (fieldOpc word) (fieldW224 word) (fieldSp word) (fieldLen word)) (i - 8)
  rw [fieldLen_packWord, Nat.mod_eq_of_lt (fieldLen_lt word), testBit_fieldLen] at hf
  by_cases h8 : 8 ≤ i
  · have h9 : i - 8 < 24 := by omega
    have h10 : 8 + (i - 8) = i := by omega
    simpa [h9, h10] using hf.symm
  · have hr : ∀ k, k < 2 → word.getLsbD (6 + k) = false := by
      intro k hk
      have := congrArg (fun v => v.getLsbD k) h
      simpa [fieldRsv, hk] using this
    have h6 := hr 0 (by omega)
    have h7 := hr 1 (by omega)
    interval_cases i <;> simp_all [packWord, fieldOpc, fieldW224, fieldSp]
end Sys2Proof
end

