-- ==== Sys2Proof/Laws/Ops.lean ====
section
/-! SUPPORT. What each shared operation, each command and the step can answer, said once: later proofs cite these and do
not unfold the meanings. -/

namespace Sys2Proof.Machine

/-! ### Waiting and checking -/

theorem withData_of_le {len : Nat} {s : State} {go : List Byte → State → Result} (h : len ≤ s.dataIn.length) :
    withData len s go = go (s.dataIn.take len) (consume len s) := by
  rw [withData, if_neg (by omega)]

theorem withData_of_lt {len : Nat} {s : State} {go : List Byte → State → Result} (h : s.dataIn.length < len) :
    withData len s go = .next s := if_pos h

/-- Everything `withData` can answer: it waits, or it goes on with exactly `len` bytes. -/
theorem withData_next {len : Nat} {s t : State} {go : List Byte → State → Result} (h : withData len s go = .next t) :
    (s.dataIn.length < len ∧ t = s) ∨
      (len ≤ s.dataIn.length ∧ go (s.dataIn.take len) (consume len s) = .next t) := by
  by_cases hl : s.dataIn.length < len
  · rw [withData_of_lt hl] at h
    exact .inl ⟨hl, (Host.Outcome.next.inj h).symm⟩
  · rw [withData_of_le (by omega)] at h
    exact .inr ⟨by omega, h⟩

theorem whenConfigured_true {s : State} {go : Result} (h : s.eng.cfg = true) : whenConfigured s go = go := if_pos h

theorem whenConfigured_false {s : State} {go : Result} (h : s.eng.cfg = false) :
    whenConfigured s go = .next (raise .unconfigured s) := by simp [whenConfigured, h]

/-- Everything `whenConfigured` can answer: the fault Unconfigured, or what follows. -/
theorem whenConfigured_next {s t : State} {go : Result} (h : whenConfigured s go = .next t) :
    (s.eng.cfg = false ∧ t = raise .unconfigured s) ∨ (s.eng.cfg = true ∧ go = .next t) := by
  cases hc : s.eng.cfg
  · rw [whenConfigured_false hc] at h
    exact .inl ⟨rfl, (Host.Outcome.next.inj h).symm⟩
  · rw [whenConfigured_true hc] at h
    exact .inr ⟨rfl, h⟩

theorem whenBufferOpen_of_le {s : State} {go : Result} (h : s.eng.nx.val ≤ 63) : whenBufferOpen s go = go := by
  rw [whenBufferOpen, if_neg]
  intro h'
  rw [h'] at h
  exact absurd h (by decide)

/-- `whenBufferOpen` answers a next state only if there is room and what follows answers it. -/
theorem whenBufferOpen_next {s t : State} {go : Result} (h : whenBufferOpen s go = .next t) :
    s.eng.nx.val ≤ 63 ∧ go = .next t := by
  unfold whenBufferOpen at h
  split at h
  · cases h
  · rename_i hne
    refine ⟨?_, h⟩
    have := s.eng.nx.isLt
    have : s.eng.nx.val ≠ 64 := fun h64 => hne (Fin.ext h64)
    omega

theorem whenOutReady_true {s : State} {go : Result} (h : s.outReady = true) : whenOutReady s go = go := if_pos h

theorem whenOutReady_false {s : State} {go : Result} (h : s.outReady = false) : whenOutReady s go = .next s := by
  simp [whenOutReady, h]

/-- Everything `whenOutReady` can answer: it waits, or what follows. -/
theorem whenOutReady_next {s t : State} {go : Result} (h : whenOutReady s go = .next t) :
    (s.outReady = false ∧ t = s) ∨ (s.outReady = true ∧ go = .next t) := by
  cases hc : s.outReady
  · rw [whenOutReady_false hc] at h
    exact .inl ⟨rfl, (Host.Outcome.next.inj h).symm⟩
  · rw [whenOutReady_true hc] at h
    exact .inr ⟨rfl, h⟩

/-! ### What each command can answer -/

theorem execNew_next {w : Width} {s t : State} (h : execNew w s = .next t) :
    t = respond .ok 0 (openSession w (Vector.replicate 4 0) s) := (Host.Outcome.next.inj h).symm

theorem execNews_next {w : Width} {len : Nat} {s t : State} (h : execNews w len s = .next t) :
    (s.dataIn.length < len ∧ t = s) ∨
    (len ≤ s.dataIn.length ∧ len ≠ 16 ∧ t = raise .invalidSaltLength (consume len s)) ∨
    (len ≤ s.dataIn.length ∧ len = 16 ∧
      t = respond .ok 0 (openSession w (saltOfBytes (s.dataIn.take len)) (consume len s))) := by
  obtain h | ⟨hl, h⟩ := withData_next h
  · exact .inl h
  · split at h
    · exact .inr (.inr ⟨hl, ‹_›, (Host.Outcome.next.inj h).symm⟩)
    · exact .inr (.inl ⟨hl, ‹_›, (Host.Outcome.next.inj h).symm⟩)

theorem execReset_next {s t : State} (h : execReset s = .next t) :
    (s.eng.cfg = false ∧ t = raise .unconfigured s) ∨
    (s.eng.cfg = true ∧ t = respond .ok 0 (restartSession s)) := by
  obtain h | ⟨hc, h⟩ := whenConfigured_next h
  · exact .inl h
  · exact .inr ⟨hc, (Host.Outcome.next.inj h).symm⟩

theorem execWrite_next {len : Nat} {s t : State} (h : execWrite len s = .next t) :
    (s.dataIn.length < len ∧ t = s) ∨
    (len ≤ s.dataIn.length ∧ s.eng.cfg = false ∧ t = raise .unconfigured (consume len s)) ∨
    (len ≤ s.dataIn.length ∧ s.eng.cfg = true ∧ s.eng.nx.val ≤ 63 ∧
      t = respond .ok 0 (setEngine (s.eng.absorbAll (s.dataIn.take len)) (consume len s))) := by
  obtain h | ⟨hl, h⟩ := withData_next h
  · exact .inl h
  · obtain ⟨hc, h⟩ | ⟨hc, h⟩ := whenConfigured_next h
    · exact .inr (.inl ⟨hl, hc, h⟩)
    · obtain ⟨hn, h⟩ := whenBufferOpen_next h
      exact .inr (.inr ⟨hl, hc, hn, (Host.Outcome.next.inj h).symm⟩)

theorem execSum_next {s t : State} (h : execSum s = .next t) :
    (s.eng.cfg = false ∧ t = raise .unconfigured s) ∨
    (s.eng.cfg = true ∧ s.outReady = false ∧ t = s) ∨
    (s.eng.cfg = true ∧ s.outReady = true ∧ s.eng.nx.val ≤ 63 ∧ t = respond .ok 0 (emit s.eng.digest s)) := by
  obtain h | ⟨hc, h⟩ := whenConfigured_next h
  · exact .inl h
  · obtain ⟨ho, h⟩ | ⟨ho, h⟩ := whenOutReady_next h
    · exact .inr (.inl ⟨hc, ho, h⟩)
    · obtain ⟨hn, h⟩ := whenBufferOpen_next h
      exact .inr (.inr ⟨hc, ho, hn, (Host.Outcome.next.inj h).symm⟩)

theorem execBlocksize_next {s t : State} (h : execBlocksize s = .next t) : t = respond .ok 64 s :=
  (Host.Outcome.next.inj h).symm

theorem execSize_next {s t : State} (h : execSize s = .next t) :
    (s.eng.cfg = false ∧ t = raise .unconfigured s) ∨
    (s.eng.cfg = true ∧ t = respond .ok (BitVec.ofNat 32 (digestBytes s.eng.w)) s) := by
  obtain h | ⟨hc, h⟩ := whenConfigured_next h
  · exact .inl h
  · exact .inr ⟨hc, (Host.Outcome.next.inj h).symm⟩

/-- Everything a step can do: hold the state with no command, fault on an illegal word, or run the command. -/
theorem step_next {s t : State} (h : step s = .next t) :
    (s.cmdIn = [] ∧ s.dataIn = [] ∧ t = s) ∨
    ∃ (word : Word) (rest : List Word), s.cmdIn = word :: rest ∧
      ((∃ e, decode word = .error e ∧ t = raise .illegalCommand s) ∨
        ∃ i, decode word = .ok i ∧ exec i s = .next t) := by
  unfold step at h
  split at h
  · rename_i hcmd
    unfold noCommand at h
    split at h
    · exact .inl ⟨hcmd, ‹_›, (Host.Outcome.next.inj h).symm⟩
    · cases h
  · rename_i word rest hcmd
    refine .inr ⟨word, rest, hcmd, ?_⟩
    split at h
    · exact .inr ⟨_, ‹_›, h⟩
    · exact .inl ⟨_, ‹_›, (Host.Outcome.next.inj h).symm⟩

/-- A run of `n + 1` steps that starts with a step to `t` is the run of `n` steps from `t`. -/
theorem run_succ {n : Nat} {s t : State} (h : step s = .next t) :
    Host.Core.run Sys2Proof.core (n + 1) s = Host.Core.run Sys2Proof.core n t := by
  have h1 : Sys2Proof.core.step s = .next t := h
  simp only [Host.Core.run, h1]

end Sys2Proof.Machine
end

