-- ==== Sys2Proof/Laws/Padding.lean ====
section
/-! SUPPORT. The bits of a byte string and the blocks of a bit string, for the padded message (42_finalization.md
R199). -/

namespace Sys2Proof.Machine

theorem bitsOfBytes_append (a b : List Byte) : bitsOfBytes (a ++ b) = bitsOfBytes a ++ bitsOfBytes b :=
  List.flatMap_append

theorem bitsOfBytes_cons (b : Byte) (l : List Byte) : bitsOfBytes (b :: l) = bitsOfByte b ++ bitsOfBytes l := rfl

theorem bitsOfByte_length (b : Byte) : (bitsOfByte b).length = 8 := by simp [bitsOfByte]

theorem bitsOfBytes_length (l : List Byte) : (bitsOfBytes l).length = 8 * l.length := by
  induction l with
  | nil => rfl
  | cons b l ih => rw [bitsOfBytes_cons, List.length_append, bitsOfByte_length, ih, List.length_cons]; omega

theorem bitsOfBytes_zeros (k : Nat) : bitsOfBytes (List.replicate k 0) = List.replicate (8 * k) false := by
  induction k with
  | zero => rfl
  | succ k ih =>
    have h : bitsOfByte 0 = List.replicate 8 false := by decide
    rw [List.replicate_succ, bitsOfBytes_cons, ih, h, List.replicate_append_replicate]; congr 1; omega

/-- The length field, bit by bit. -/
theorem bitsOfBytes_bytesBe64 (l : Counter) :
    bitsOfBytes (bytesBe64 l) = (List.range 64).map fun k => l.getLsbD (63 - k) := by
  apply List.ext_getElem
  · rw [bitsOfBytes_length]; simp [bytesBe64, bytesBe32]
  · intro i h1 h2
    have h3 : i < 64 := by simpa using h2
    simp [bytesBe64, bytesBe32, bitsOfBytes, bitsOfByte, hi32, lo32, List.range_succ]

theorem bitsOfBytes_getD (l : List Byte) (i k : Nat) (hk : k < 8) :
    (bitsOfBytes l).getD (8 * i + k) false = (l.getD i 0).getLsbD (7 - k) := by
  induction l generalizing i with
  | nil => simp [bitsOfBytes]
  | cons b l ih =>
    rw [bitsOfBytes_cons]
    cases i with
    | zero =>
      rw [List.getD_append _ _ _ _ (by rw [bitsOfByte_length]; omega)]
      simp [bitsOfByte, List.getD_eq_getElem?_getD, hk]
    | succ i =>
      rw [List.getD_append_right _ _ _ _ (by rw [bitsOfByte_length]; omega), bitsOfByte_length]
      have h : 8 * (i + 1) + k - 8 = 8 * i + k := by omega
      rw [h, ih]; rfl

theorem byteOfBits_getLsbD (bits : List Bool) (i j : Nat) (hj : j < 8) :
    (byteOfBits bits i).getLsbD j = bits.getD (8 * i + (7 - j)) false := by
  simp only [byteOfBits, List.range_succ, List.range_zero, List.nil_append, List.map_append, List.map_cons,
    List.map_nil, List.foldl_append, List.foldl_cons, List.foldl_nil]
  interval_cases j <;> simp

/-- The bytes of a byte string's bits are the byte string. -/
theorem byteOfBits_bitsOfBytes (l : List Byte) (i : Nat) : byteOfBits (bitsOfBytes l) i = l.getD i 0 := by
  apply BitVec.eq_of_getLsbD_eq
  intro j hj
  rw [byteOfBits_getLsbD _ _ _ hj, bitsOfBytes_getD _ _ _ (by omega)]
  congr 1; omega

/-- Block `k` of a byte string's bits is its `k`-th 64 bytes. -/
theorem paddedBlock_bitsOfBytes (l : List Byte) (k : Nat) :
    paddedBlock (bitsOfBytes l) k = blockOfBytes ((l.drop (64 * k)).take 64) := by
  ext i hi
  rw [blockOfBytes_getElem _ _ hi]
  simp [paddedBlock, byteOfBits_bitsOfBytes, List.getD_eq_getElem?_getD, hi]

end Sys2Proof.Machine
end

