-- ==== Sys2Proof/Laws/PerInstr.lean ====
section
/-! SUPPORT. Statements made per command, one lemma for each constructor of Instr. -/

namespace Sys2Proof

/-- A packed word, seen through a mask of its low byte. -/
theorem packWord_and_of_low (opc : BitVec 4) (w224 sp : Bool) (len : Nat) (mask m : Word)
    (hlow : ∀ i, i < 8 → ((mask.getLsbD i && (packWord opc w224 sp len).getLsbD i) = m.getLsbD i))
    (hhigh : ∀ i, 8 ≤ i → i < 32 → mask.getLsbD i = false ∧ m.getLsbD i = false) :
    packWord opc w224 sp len &&& mask = m := by
  apply BitVec.eq_of_getLsbD_eq
  intro i hi
  rw [BitVec.getLsbD_and, Bool.and_comm]
  by_cases h8 : i < 8
  · exact hlow i h8
  · obtain ⟨h1, h2⟩ := hhigh i (by omega) hi
    rw [h1, h2, Bool.false_and]

/-- The encoded word of a command matches its row of the opcode map, carries its opcode, and its reserved bits are 0
(30_encoding.md R71, R75). -/
def Laws.EncodedRow.Statement (i : Instr) : Prop :=
  encode i &&& i.rowMask = i.rowMatch ∧ fieldOpc (encode i) = i.opcode ∧ fieldRsv (encode i) = 0

theorem Laws.EncodedRow.new (w : Width) : Laws.EncodedRow.Statement (.new w) := by
  cases w <;> exact ⟨by decide, by decide, by decide⟩

theorem Laws.EncodedRow.news (w : Width) (len : Nat) : Laws.EncodedRow.Statement (.news w len) := by
  refine ⟨packWord_and_of_low _ _ _ _ _ _ ?_ ?_, fieldOpc_packWord _ _ _ _, fieldRsv_packWord _ _ _ _⟩
  · intro i hi
    cases w <;> interval_cases i <;> simp [packWord, Instr.rowMask, Instr.rowMatch, Instr.opcode]
  · intro i h1 h2
    interval_cases i <;> simp [Instr.rowMask, Instr.rowMatch]

theorem Laws.EncodedRow.write (len : Nat) : Laws.EncodedRow.Statement (.write len) := by
  refine ⟨packWord_and_of_low _ _ _ _ _ _ ?_ ?_, fieldOpc_packWord _ _ _ _, fieldRsv_packWord _ _ _ _⟩
  · intro i hi
    interval_cases i <;> simp [packWord, Instr.rowMask, Instr.rowMatch, Instr.opcode]
  · intro i h1 h2
    interval_cases i <;> simp [Instr.rowMask, Instr.rowMatch]

theorem Laws.EncodedRow.sum : Laws.EncodedRow.Statement .sum := ⟨by decide, by decide, by decide⟩

theorem Laws.EncodedRow.reset : Laws.EncodedRow.Statement .reset := ⟨by decide, by decide, by decide⟩

theorem Laws.EncodedRow.blocksize : Laws.EncodedRow.Statement .blocksize := ⟨by decide, by decide, by decide⟩

theorem Laws.EncodedRow.size : Laws.EncodedRow.Statement .size := ⟨by decide, by decide, by decide⟩

end Sys2Proof
end

