-- ==== Sys2Proof/Tests/Slice0.lean ====
section
/-! SUPPORT. Tests with expected results from 95_test_vectors.md, one step each, and a witness for the hypotheses of each
statement. -/

namespace Sys2Proof.Tests

open Sys2Proof Sys2Proof.Machine

/-! ### Helpers -/

/-- The `len` bytes of a hex string, first byte leftmost (00_scope.md R9). -/
def hexString (len n : Nat) : List Byte := (List.range len).map fun k => BitVec.ofNat 8 (n >>> (8 * (len - 1 - k)))

/-- `bytes(0..n-1)` of 95_test_vectors.md. -/
def countingBytes (n : Nat) : List Byte := (List.range n).map fun k => BitVec.ofNat 8 k

/-- A state with an open unsalted session of width `w` and `bytes` written, where `bytes` is shorter than a block. -/
def session (w : Width) (bytes : List Byte) : State :=
  setEngine { Engine.powerOn with
    cfg := true, w := w, h := iv w, x := Vector.ofFn fun i : Fin 64 => bytes.getD i.val 0
    nx := Fin.ofNat 65 bytes.length } State.reset

/-- A state with command words and data-in bytes on the ports. -/
def given (words : List Word) (bytes : List Byte) (s : State) : State := { s with cmdIn := words, dataIn := bytes }

/-- The outcome is a next state with property `p`. -/
def nextWith (r : Result) (p : State → Bool) : Bool :=
  match r with
  | .next t => p t
  | .fault _ => false
  | .refused _ => false

/-- The outcome is a next state. -/
def isNext (r : Result) : Bool := nextWith r fun _ => true

theorem isNext_exists {r : Result} (h : isNext r = true) : ∃ t, r = .next t := by
  cases r with
  | next t => exact ⟨t, rfl⟩
  | fault f => cases h
  | refused f => cases h

/-! ### WellFormed -/

/-- LEN is 24 bits (R74): 2^24 - 1 fits and 2^24 does not. -/
theorem test_wellFormed_write : (Instr.write (2 ^ 24)).wellFormed = false ∧ (Instr.write (2 ^ 24 - 1)).wellFormed = true := by
  decide

theorem test_wellFormed_news :
    (Instr.news .w224 (2 ^ 24)).wellFormed = false ∧ (Instr.news .w224 (2 ^ 24 - 1)).wellFormed = true := by decide

/-! ### Decoding words written out from R71 and R75: LEN, RSV, SP, W224, OPC -/

theorem test_decode_new : decode 0b000000000000000000000000_00_0_1_0000 = .ok (.new .w224) := by decide

theorem test_decode_new256 : decode 0b000000000000000000000000_00_0_0_0000 = .ok (.new .w256) := by decide

theorem test_decode_news : decode 0b000000000000000000010000_00_1_1_0000 = .ok (.news .w224 16) := by decide

theorem test_decode_write : decode 0b100000000000000000000101_00_0_0_0001 = .ok (.write 8388613) := by decide

theorem test_decode_sum : decode 0b000000000000000000000000_00_0_0_0010 = .ok .sum := by decide

theorem test_decode_reset : decode 0b000000000000000000000000_00_0_0_0011 = .ok .reset := by decide

theorem test_decode_blocksize : decode 0b000000000000000000000000_00_0_0_0100 = .ok .blocksize := by decide

theorem test_decode_size : decode 0b000000000000000000000000_00_0_0_0101 = .ok .size := by decide

/-- The illegal words of V15, each with the condition of R78 it meets. -/
theorem test_decode_illegal :
    decode 0x00000006 = .error .reservedOpcode ∧ decode 0x0000000F = .error .reservedOpcode ∧
    decode 0x00000040 = .error .reservedBits ∧ decode 0x00000110 = .error .newWithLength ∧
    decode 0x00000011 = .error .writeWithWidthOrSalt ∧ decode 0x00000021 = .error .writeWithWidthOrSalt ∧
    decode 0x00000012 = .error .unusedField ∧ decode 0x00000102 = .error .unusedField ∧
    decode 0x00000041 = .error .reservedBits := by decide

/-- The words of the programs P1 and P3. -/
theorem test_encode_words :
    encode (.write 5) = 0x00000501 ∧ encode (.news .w256 16) = 0x00001020 ∧ encode (.news .w224 8) = 0x00000830 := by
  decide

/-! ### Arithmetic and the compression core -/

/-- V1. -/
theorem test_rotr : rotr 0x12345678 7 = 0xF02468AC ∧ rotr 0x12345678 16 = 0x56781234 ∧ rotr 0x00000001 16 = 0x00010000 := by
  decide

/-- V1: carry into t1, wrap, and the snapshot's back-off below zero. -/
theorem test_counter : (0x00000000FFFFFE00#64 + 512 = 0x0000000100000000#64) ∧ (0#64 - 440 = 0xFFFFFFFFFFFFFE48#64) := by
  decide

/-- V12: the length field of 55 bytes. -/
theorem test_bytesBe64 : bytesBe64 0x1b8 = [0, 0, 0, 0, 0, 0, 0x01, 0xb8] := by decide

/-- V2 case 4. -/
theorem test_gMix :
    gMix ⟨0x6A09E667, 0x510E527F, 0x243F6A88, 0xA4093822⟩ 0x80000000 0 0x243F6A88 0x85A308D3 =
      ⟨0xB957798A, 0x3C058EAC, 0xD69B9B57, 0x38C0CC1D⟩ := by decide +kernel

/-- V3, second row: the counter words in v[12..15]. -/
theorem test_initVector :
    (initVector iv256 (Vector.replicate 4 0) 0x0000000100000200 false).toList.drop 12 =
      [0xA4093A22, 0x299F33D0, 0x082EFA99, 0xEC4E6C88] := by decide +kernel

/-- R113, the row of round 11. -/
theorem test_roundPerm : (roundPerm 11).toList = [14, 10, 4, 8, 9, 15, 13, 6, 1, 12, 0, 2, 11, 7, 5, 3] := by
  decide +kernel

/-! ### NEW (R155) -/

/-- The worked example of R155, as the first instruction after power-on. -/
theorem test_new_opens_session :
    nextWith (step (State.reset.withFetchWord 32 0x00000010)) (fun t =>
      t.eng.cfg && t.eng.w = .w224 && t.eng.h = iv224 && t.eng.t = 0 && t.eng.nx = 0 &&
        t.resps = [⟨.ok, 0⟩] && t.cmdIn = []) = true := by decide +kernel

/-- D13: NEW discards the open session, its salt included. -/
theorem test_new_discards_salt :
    nextWith (exec (.new .w256) (setEngine { (session .w224 [1, 2]).eng with salt := #v[1, 2, 3, 4] } State.reset)) (fun t =>
      t.eng.salt = #v[0, 0, 0, 0] && t.eng.w = .w256 && t.eng.nx = 0) = true := by decide +kernel

/-! ### NEWS (R156, R221) -/

/-- V9: the salt "1234567890123456" as big-endian words. -/
theorem test_news_salt_words :
    nextWith (step (given [0x00001020] (hexString 17 0x3132333435363738393031323334353677) State.reset)) (fun t =>
      t.eng.salt = #v[0x31323334, 0x35363738, 0x39303132, 0x33343536] && t.dataIn = [0x77]) = true := by decide +kernel

/-- V15: LEN = 17 after NEW 224. -/
theorem test_news_wrong_length :
    nextWith (step (given [0x00001120, 0x2] (List.replicate 18 9) (session .w224 []))) (fun t =>
      t.eng = (session .w224 []).eng && t.dataIn = [9] && t.resps = [⟨.invalidSaltLength, 0⟩] && t.cmdIn = [0x2]) =
      true := by decide +kernel

/-! ### WRITE (R153) -/

/-- V11: WRITE zeros(64) after NEW 256. -/
theorem test_write_block :
    nextWith (step (given [0x00004001] (List.replicate 64 0) (session .w256 []))) (fun t =>
      t.eng.h = #v[0xB5BFB2F9, 0x14CFCC63, 0xB85C549C, 0xC9B4184E, 0x67DFC6CE, 0x29E9904B, 0xD59EE74E, 0xFAA9C653] &&
        t.eng.t = 512 && t.eng.nx = 0 && t.dataIn = []) = true := by decide +kernel

/-- V10: the counter carries into t1. -/
theorem test_write_counter_carry :
    nextWith (step (given [0x00004001] (List.replicate 64 0)
      (setEngine { (session .w256 []).eng with t := 0x00000000FFFFFE00 } State.reset))) (fun t =>
      t.eng.t = 0x0000000100000000 && t.eng.h[0] = 0xF96C5FF7 && t.eng.h[7] = 0xD1F7E898) = true := by decide +kernel

/-! ### SUM (R190) -/

/-- T2: SUM after NEW 256 and WRITE "BLAKE". -/
theorem test_sum_blake :
    nextWith (step (given [0x00000002] [] (session .w256 [0x42, 0x4C, 0x41, 0x4B, 0x45]))) (fun t =>
      t.dataOut = hexString 32 0x07663e00cf96fbc136cf7b1ee099c95346ba3920893d18cc8851f22ee2e36aa6 &&
        t.eng = (session .w256 [0x42, 0x4C, 0x41, 0x4B, 0x45]).eng) = true := by decide +kernel

/-- V12, W = 224, n = 55: the folded byte, 28 bytes. -/
theorem test_sum_folded_224 :
    nextWith (step (given [0x00000002] [] (session .w224 (countingBytes 55)))) (fun t =>
      t.dataOut = hexString 28 0x9cf0874791902bfae4cf1ea7234c86493d536e4d540dc8309539a6f5) = true := by decide +kernel

/-- V12, W = 256, n = 56: two compressions. -/
theorem test_digest_two_blocks :
    (session .w256 (countingBytes 56)).eng.digest =
      hexString 32 0x26ca422697c9fabc642129b1a5669be07fb0a3c31f14f1c7859e048ad5958e44 := by decide +kernel

/-! ### RESET (R157) -/

/-- P3: RESET keeps the width and the salt. -/
theorem test_reset_keeps_salt :
    nextWith (step (given [0x00000003] []
      (setEngine { (session .w224 [1, 2, 3]).eng with salt := #v[1, 2, 3, 4], t := 512 } State.reset))) (fun t =>
      t.eng.salt = #v[1, 2, 3, 4] && t.eng.w = .w224 && t.eng.h = iv224 && t.eng.t = 0 && t.eng.nx = 0 && t.eng.cfg) =
      true := by decide +kernel

/-- V15: RESET at power-on. -/
theorem test_reset_unconfigured :
    nextWith (step (given [0x00000003] [] State.reset)) (fun t =>
      t.resps = [⟨.unconfigured, 0⟩] && t.eng = Engine.powerOn) = true := by decide +kernel

/-! ### BLOCKSIZE and SIZE (R158, R159) -/

/-- V14: BLOCKSIZE at power-on. -/
theorem test_blocksize : nextWith (step (given [0x00000004] [] State.reset)) (fun t => t.resps = [⟨.ok, 64⟩]) = true := by
  decide +kernel

/-- V14: SIZE after NEW 224. -/
theorem test_size_224 :
    nextWith (step (given [0x00000005] [] (session .w224 []))) (fun t => t.resps = [⟨.ok, 28⟩]) = true := by
  decide +kernel

/-- V14: SIZE at power-on. -/
theorem test_size_unconfigured :
    nextWith (step (given [0x00000005] [] State.reset)) (fun t => t.resps = [⟨.unconfigured, 0⟩]) = true := by
  decide +kernel

/-! ### Faults, framing, ports -/

/-- V15: WRITE "ab" at power-on consumes its two bytes. -/
theorem test_write_unconfigured :
    nextWith (step (given [0x00000201] [0x61, 0x62, 0x63] State.reset)) (fun t =>
      t.resps = [⟨.unconfigured, 0⟩] && t.dataIn = [0x63] && t.eng = Engine.powerOn) = true := by decide +kernel

/-- R254 item 1: a WRITE of two bytes with one delivered waits, and completes once the other is delivered. -/
theorem test_write_waits :
    step (given [0x00000201] [7] (session .w256 [])) = .next (given [0x00000201] [7] (session .w256 [])) ∧
    nextWith (step (deliver [8] (given [0x00000201] [7] (session .w256 [])))) (fun t =>
      t.resps = [⟨.ok, 0⟩] && t.eng.bufferBytes = [7, 8] && t.dataIn = []) = true := ⟨rfl, by decide +kernel⟩

/-- V15: SUM with W224 set at power-on is illegal before unconfigured, and no data is consumed. -/
theorem test_illegal_first :
    nextWith (step (given [0x00000012] [0x61] State.reset)) (fun t =>
      t.resps = [⟨.illegalCommand, 0⟩] && t.dataIn = [0x61]) = true := by decide +kernel

/-- The codes of R76. -/
theorem test_status_codes :
    Status.ok.code = 0x00 ∧ Status.invalidSaltLength.code = 0x01 ∧ Status.illegalCommand.code = 0x02 ∧
      Status.unconfigured.code = 0x03 := by decide

/-- R70: the data bytes an instruction's number gives follow its word; bytes it does not give are zero. -/
theorem test_tableData : tableData 40 0x41_00000201 = [0x41, 0x00] ∧ decodeTableWord 40 0x41_00000201 = some (.write 2) := by
  decide

/-! ### The assembler (R82, R83) -/

/-- P1. -/
theorem test_assemble_write :
    assembleLine "WRITE \"BLAKE\"      ; 5 bytes".toList = some [⟨0x00000501, [0x42, 0x4C, 0x41, 0x4B, 0x45]⟩] := by
  decide +kernel

/-- P5, and HASHS256 of R83. -/
theorem test_assemble_word : assembleLine "  .word 0x00000110".toList = some [⟨0x00000110, []⟩] := by decide +kernel

theorem test_assemble_hashs :
    assembleLine "HASHS256 x\"0102\", zeros(3)".toList =
      some [⟨0x00000220, [1, 2]⟩, ⟨0x00000301, [0, 0, 0]⟩, ⟨0x00000002, []⟩] := by decide +kernel

/-! ### The padded message (R199) -/

/-- V12, n = 5 and n = 55: the byte after the message, the domain byte, the last byte of the length. -/
theorem test_paddedBits :
    byteOfBits (paddedBits .w256 (countingBytes 5)) 5 = 0x80 ∧ byteOfBits (paddedBits .w256 (countingBytes 5)) 55 = 0x01 ∧
    byteOfBits (paddedBits .w256 (countingBytes 5)) 63 = 0x28 ∧
    byteOfBits (paddedBits .w224 (countingBytes 55)) 55 = 0x80 := by decide +kernel

/-- V12: one block for n = 55, two for n = 56. -/
theorem test_paddedBits_length :
    (paddedBits .w224 (countingBytes 55)).length = 512 ∧ (paddedBits .w256 (countingBytes 56)).length = 1024 := by
  decide +kernel

/-! ### Witnesses: the hypotheses of each statement hold together -/

/-- A session of width 256 with one byte written and data on the port. -/
def busy : State := given [0x00000501] (List.replicate 70 7) (session .w256 [1])

theorem witness_decodeAfterEncode :
    (Instr.news .w224 (2 ^ 24 - 1)).wellFormed = true ∧ (Instr.write 0).wellFormed = true ∧ Instr.sum.wellFormed = true := by
  decide

theorem witness_encodeAfterDecode : decode 0xFFFFFF01 = .ok (.write (2 ^ 24 - 1)) ∧ decode 0x00000020 = .ok (.news .w256 0) := by
  decide

/-- Each of the five conditions of R78, at its boundary. -/
theorem witness_illegalWordFaults :
    (given [0x00000006] [] State.reset).cmdIn = [0x00000006] ∧ wordIllegal 0x00000006 ∧ wordIllegal 0x0000000F ∧
    wordIllegal 0x00000040 ∧ wordIllegal 0x00000080 ∧ wordIllegal 0x00000100 ∧ wordIllegal 0x00000011 ∧
    wordIllegal 0x00000021 ∧ wordIllegal 0x00000012 ∧ wordIllegal 0x00000105 :=
  ⟨rfl, .inl (by decide), .inl (by decide), .inr (.inl (by decide)), .inr (.inl (by decide)),
    .inr (.inr (.inl (by decide))), .inr (.inr (.inr (.inl (by decide)))), .inr (.inr (.inr (.inl (by decide)))),
    .inr (.inr (.inr (.inr (by decide)))), .inr (.inr (.inr (.inr (by decide))))⟩

theorem witness_abstractCommandReadsBack :
    (Cmd.write [1, 2, 3]).frames = some [⟨0x00000301, [1, 2, 3]⟩] ∧
    (Cmd.news .w224 []).frames = some [⟨0x00000030, []⟩] ∧
    (Cmd.illegal 0x00000006).frames = some [⟨0x00000006, []⟩] ∧ decode 0x00000006 = .error .reservedOpcode := by
  decide +kernel

theorem witness_stepRunsDecodedCommand :
    busy.cmdIn = [0x00000501] ∧ decode 0x00000501 = .ok (.write 5) ∧ decodeTableWord 32 0x00000002 = some .sum ∧
    decodeTableWord 40 0x4100000101 = some (.write 1) := by decide

theorem witness_stepWithoutCommand :
    State.reset.cmdIn = [] ∧ State.reset.dataIn = [] ∧ (given [] [0] State.reset).cmdIn = [] ∧
    (given [] [0] State.reset).dataIn ≠ [] := by decide

/-- A step that waits, and one that responds. -/
theorem witness_oneResponsePerCommand :
    (step State.reset = .next State.reset) ∧
    (∃ t, step (given [0x00000004] [] State.reset) = .next t ∧ t.resps = [⟨.ok, 64⟩]) := ⟨rfl, _, rfl, rfl⟩

theorem witness_shortInputWaits :
    State.reset.dataIn.length < 1 ∧ (given [] (List.replicate 15 0) State.reset).dataIn.length < 16 ∧
    ({ session .w256 [] with outReady := false } : State).eng.cfg = true ∧
    ({ session .w256 [] with outReady := false } : State).outReady = false := by decide

theorem witness_newOpensUnsaltedSession :
    ((0x00000010 : Word) &&& 0xFFFFFFEF = 0x00000000) ∧ ((0x00000000 : Word) &&& 0xFFFFFFEF = 0x00000000) := by decide

theorem witness_newIsNewsWithZeroSalt :
    (given [] (List.replicate 16 0x00 ++ [5]) State.reset).dataIn = List.replicate 16 0x00 ++ [5] := rfl

/-- Both clauses: exactly 16 bytes, and 15 and 17 bytes. -/
theorem witness_newsOpensSaltedSession :
    ((0xFFFFFF30 : Word) &&& 0x000000EF = 0x00000020) ∧
    16 ≤ (given [] (List.replicate 16 1) State.reset).dataIn.length ∧
    (15 ≠ 16 ∧ 15 ≤ (given [] (List.replicate 17 1) State.reset).dataIn.length) ∧
    (17 ≠ 16 ∧ 17 ≤ (given [] (List.replicate 17 1) State.reset).dataIn.length) := by decide

theorem witness_invalidSaltLengthFault :
    (0 ≠ 16 ∧ 0 + 16 ≤ (given [] (List.replicate 16 1) State.reset).dataIn.length) ∧
    ∃ t, exec (.news .w256 0) (given [] (List.replicate 16 1) State.reset) = .next t ∧
      t.resps = (given [] (List.replicate 16 1) State.reset).resps ++ [⟨.invalidSaltLength, 0⟩] :=
  ⟨by decide, _, rfl, rfl⟩

/-- Configured, unconfigured, and RESET after a RESET and after a NEW. -/
theorem witness_resetRestartsSession :
    (session .w224 [1]).eng.cfg = true ∧ State.reset.eng.cfg = false ∧
    (∃ t u, exec (.new .w224) State.reset = .next t ∧ t.resps = State.reset.resps ++ [⟨.ok, 0⟩] ∧
      exec .reset t = .next u) ∧
    (∃ t u, exec .reset (session .w224 [1]) = .next t ∧ t.resps = (session .w224 [1]).resps ++ [⟨.ok, 0⟩] ∧
      exec .reset t = .next u) := ⟨rfl, rfl, ⟨_, _, rfl, rfl, rfl⟩, ⟨_, _, rfl, rfl, rfl⟩⟩

theorem witness_sizeAnswersDigestBytes : (session .w224 []).eng.cfg = true ∧ State.reset.eng.cfg = false := by decide

theorem witness_sizeIsTheDigestLength :
    busy.eng.cfg = true ∧ busy.outReady = true ∧ busy.eng.nx.val ≤ 63 ∧ (∃ t, exec .size busy = .next t) ∧
    (∃ u, exec .sum busy = .next u) := ⟨by decide, by decide, by decide, ⟨_, rfl⟩, isNext_exists (by decide +kernel)⟩

/-- Both clauses at the edge of the buffer: 62 is the last fill that only appends, 63 the one that compresses. -/
theorem witness_absorbAppendsOrCompresses :
    (session .w256 (countingBytes 62)).eng.nx.val < 63 ∧ (session .w256 (countingBytes 63)).eng.nx = 63 := by decide

/-- The word, and both the configured and the unconfigured clause, with no byte and with all bytes present. -/
theorem witness_writeAbsorbsItsBytes :
    ((0xFFFFFF01 : Word) &&& 0x000000FF = 0x00000001) ∧
    (busy.eng.cfg = true ∧ busy.eng.nx.val ≤ 63 ∧ 70 ≤ busy.dataIn.length ∧ 0 ≤ busy.dataIn.length) ∧
    (State.reset.eng.cfg = false ∧ 0 ≤ State.reset.dataIn.length) := by decide

theorem witness_writeClosedForm :
    busy.eng.cfg = true ∧ busy.eng.nx.val ≤ 63 ∧ 70 ≤ busy.dataIn.length ∧ ∃ t, exec (.write 70) busy = .next t :=
  ⟨by decide, by decide, by decide, isNext_exists (by decide +kernel)⟩

theorem witness_writeStreamingEquivalence :
    busy.eng.cfg = true ∧ busy.eng.nx.val ≤ 63 ∧
    busy.dataIn = [List.replicate 3 7, [], List.replicate 65 7].flatten ++ [7, 7] := by decide

/-- Exactly the announced bytes: 3 message bytes, 8 bytes of a faulted NEWS, 59 message bytes. -/
theorem witness_sessionStateIsItsMessage :
    busy.eng.cfg = true ∧ busy.eng.nx.val ≤ 63 ∧ busy.outReady = true ∧
    (∀ i ∈ [.write 3, .sum, .news .w224 8, .size, .blocksize, .write 59], constructs i = false ∧ i ≠ .reset) ∧
    ([.write 3, .sum, .news .w224 8, .size, .blocksize, .write 59].map Instr.dataLen).sum = busy.dataIn.length := by
  decide

theorem witness_directWriteSameState :
    (session .w256 (countingBytes 63)).eng.nx.val ≤ 63 ∧ Engine.powerOn.nx.val ≤ 63 := by decide

theorem witness_writeFrame :
    (∃ t, exec (.write 3) busy = .next t) ∧ busy.eng.nx.val + 3 < 64 ∧
    (∀ k < 3, (busy.eng.nx.val + k) % 64 ≠ 0) :=
  ⟨isNext_exists (by decide +kernel), by decide, by decide⟩

theorem witness_sumClosedForm : busy.Inv ∧ busy.eng.cfg = true ∧ busy.outReady = true :=
  ⟨fun _ => by decide, by decide, by decide⟩

theorem witness_sumCounterReturnsToLength : (session .w256 (countingBytes 63)).eng.nx.val ≤ 63 := by decide

theorem witness_digestIsBigEndianWords :
    busy.eng.cfg = true ∧ busy.outReady = true ∧ busy.eng.nx.val ≤ 63 ∧ ∃ t, exec .sum busy = .next t :=
  ⟨by decide, by decide, by decide, isNext_exists (by decide +kernel)⟩

theorem witness_sumIsNonDestructive :
    busy.eng.cfg = true ∧ busy.eng.nx.val ≤ 63 ∧ busy.outReady = true ∧
    busy.dataIn = List.replicate 62 7 ++ [7] ++ List.replicate 7 7 ∧ ∃ t, exec .sum busy = .next t :=
  ⟨by decide, by decide, by decide, by decide, isNext_exists (by decide +kernel)⟩

theorem witness_sessionComputesBlakeDigest :
    8 * (List.replicate 5 (7 : Byte)).length < 2 ^ 64 ∧ busy.outReady = true ∧
    busy.dataIn = List.replicate 5 7 ++ List.replicate 65 7 ∧ (List.replicate 16 (7 : Byte)).length = 16 ∧
    busy.dataIn = List.replicate 16 7 ++ List.replicate 5 7 ++ List.replicate 49 7 := by decide

theorem witness_hashAgainAfterReset :
    busy.outReady = true ∧ (List.replicate 16 (7 : Byte)).length = 16 ∧
    busy.dataIn = List.replicate 16 7 ++ List.replicate 27 7 ++ List.replicate 27 7 ++ [] := by decide

theorem witness_readOnlyCommandsFrame :
    (∃ t, exec .sum busy = .next t) ∧ (∃ t, exec .size busy = .next t) ∧ (∃ t, exec .blocksize busy = .next t) :=
  ⟨isNext_exists (by decide +kernel), ⟨_, rfl⟩, ⟨_, rfl⟩⟩

theorem witness_sessionCommandsFrame :
    (∃ t, exec (.new .w256) busy = .next t) ∧ (∃ t, exec (.news .w256 15) busy = .next t) ∧
    (∃ t, exec .reset busy = .next t) :=
  ⟨⟨_, rfl⟩, isNext_exists (by decide +kernel), ⟨_, rfl⟩⟩

/-- The command that takes bytes has exactly the bytes it announces. -/
theorem witness_unconfiguredFault :
    needsSession (.write 2) = true ∧ needsSession .sum = true ∧ needsSession .reset = true ∧ needsSession .size = true ∧
    (given [] [1, 2] State.reset).eng.cfg = false ∧
    (Instr.write 2).dataLen ≤ (given [] [1, 2] State.reset).dataIn.length ∧
    ∃ t, exec .sum State.reset = .next t ∧ t.resps = State.reset.resps ++ [⟨.unconfigured, 0⟩] :=
  ⟨rfl, rfl, rfl, rfl, rfl, by decide, _, rfl, rfl⟩

/-- A response of each status. -/
theorem witness_faultCausesTable :
    (∃ t, step (given [0x00000012] [] State.reset) = .next t ∧ t.resps = State.reset.resps ++ [⟨.illegalCommand, 0⟩]) ∧
    (∃ t, step (given [0x00000003] [] State.reset) = .next t ∧ t.resps = State.reset.resps ++ [⟨.unconfigured, 0⟩]) ∧
    (∃ t, step (given [0x00000120] [9] State.reset) = .next t ∧
      t.resps = State.reset.resps ++ [⟨.invalidSaltLength, 0⟩]) ∧
    (∃ t, step (given [0x00000000] [] State.reset) = .next t ∧ t.resps = State.reset.resps ++ [⟨.ok, 0⟩]) :=
  ⟨⟨_, rfl, rfl⟩, ⟨_, rfl, rfl⟩, ⟨_, rfl, rfl⟩, ⟨_, rfl, rfl⟩⟩

theorem witness_faultChangesNothing :
    ∃ t, step (given [0x00000201] [1, 2, 3] State.reset) = .next t ∧
      t.resps = (given [0x00000201] [1, 2, 3] State.reset).resps ++ [⟨.unconfigured, 0⟩] ∧
      Status.unconfigured ≠ .ok := ⟨_, rfl, rfl, by decide⟩

/-- BLOCKSIZE, SIZE and SUM, each answering OK. -/
theorem witness_responseValues :
    (∃ t, step (given [0x00000004] [] (session .w224 [])) = .next t ∧ t.resps = [] ++ [⟨.ok, 64⟩]) ∧
    (∃ t, step (given [0x00000005] [] (session .w224 [])) = .next t ∧ t.resps = [] ++ [⟨.ok, 28⟩]) ∧
    (∃ t, step (given [0x00000002] [] (session .w224 [])) = .next t ∧ t.resps = [] ++ [⟨.ok, 0⟩]) ∧
    decode 0x00000004 = .ok .blocksize ∧ decode 0x00000005 = .ok .size ∧ decode 0x00000002 = .ok .sum :=
  ⟨⟨_, rfl, rfl⟩, ⟨_, rfl, rfl⟩, ⟨_, rfl, rfl⟩, rfl, rfl, rfl⟩

theorem witness_engineInvariantKept :
    (given [0x00004601] (List.replicate 70 7) (session .w256 [1])).Inv ∧
    ∃ t, step (given [0x00004601] (List.replicate 70 7) (session .w256 [1])) = .next t :=
  ⟨fun _ => by decide, isNext_exists (by decide +kernel)⟩

theorem witness_invariantRulesOutStops :
    (given [] [1] State.reset).Inv ∧ step (given [] [1] State.reset) = .refused .surplusData :=
  ⟨fun h => Bool.noConfusion h, rfl⟩

theorem witness_framingKept :
    (given [0x00000820, 0x00000201] (List.replicate 10 0) State.reset).Framed ∧
    ∃ t, step (given [0x00000820, 0x00000201] (List.replicate 10 0) State.reset) = .next t :=
  ⟨rfl, isNext_exists (by decide +kernel)⟩

theorem witness_framedCommandsComplete :
    (given [0x00000000, 0x00000501, 0x00000002, 0x00000006] (List.replicate 5 1) State.reset).Inv ∧
    (given [0x00000000, 0x00000501, 0x00000002, 0x00000006] (List.replicate 5 1) State.reset).Framed ∧
    (given [0x00000000, 0x00000501, 0x00000002, 0x00000006] (List.replicate 5 1) State.reset).outReady = true :=
  ⟨fun h => Bool.noConfusion h, rfl, rfl⟩

theorem witness_configuredFlagRules :
    (∃ t, exec .reset busy = .next t ∧ busy.eng.cfg = true) ∧
    (∃ t, constructs (.new .w224) = true ∧ exec (.new .w224) State.reset = .next t ∧
      t.resps = State.reset.resps ++ [⟨.ok, 0⟩]) ∧
    (∃ t, step (given [0x00000010] [] State.reset) = .next t ∧ State.reset.eng.cfg = false ∧ t.eng.cfg = true) ∧
    (∃ t, needsSession .size = true ∧ exec .size State.reset = .next t ∧ t ≠ State.reset) :=
  ⟨⟨_, rfl, by decide⟩, ⟨_, rfl, rfl, rfl⟩, ⟨_, rfl, rfl, rfl⟩,
    ⟨_, rfl, rfl, fun h => List.cons_ne_nil _ _ (congrArg State.resps h)⟩⟩

theorem witness_widthAndSaltFixedInSession :
    ∃ t, step (given [0x00000010] [] (session .w256 [])) = .next t ∧
      t.eng.w ≠ (given [0x00000010] [] (session .w256 [])).eng.w := ⟨_, rfl, Width.noConfusion⟩

/-- Two configured sessions that differ in a byte beyond `nx`, and two unconfigured machines that differ in `h`. -/
theorem witness_unspecifiedStateUnobservable :
    (session .w256 [1]).Agrees (setEngine { (session .w256 [1, 2]).eng with nx := 1 } State.reset) ∧
    State.reset.Agrees (setEngine { Engine.powerOn with h := iv256 } State.reset) := by
  refine ⟨⟨⟨rfl, fun _ => ⟨rfl, rfl, rfl, rfl, rfl, rfl, ?_⟩⟩, rfl, rfl, rfl, rfl, rfl⟩,
    ⟨rfl, fun h => Bool.noConfusion h⟩, rfl, rfl, rfl, rfl, rfl⟩
  intro i _ hi
  have h1 : i < 1 := hi
  interval_cases i
  rfl

theorem witness_idempotentCommands :
    (∃ t u, exec .size busy = .next t ∧ exec .size t = .next u) ∧
    (∃ t u, exec .reset busy = .next t ∧ exec .reset t = .next u) := ⟨⟨_, _, rfl, rfl⟩, ⟨_, _, rfl, rfl⟩⟩

theorem witness_wordAndCounterArithmetic : (0 < 1 ∧ 1 < 32 ∧ 31 < 32) ∧ (0 < 31 ∧ 31 < 32 ∧ 0 < 32) := by decide

/-- The first quadruple, and a word outside it. -/
theorem witness_gRewritesItsFourWords :
    (1 : Fin 16) ≠ gIdx[(0 : Fin 8)].a ∧ (1 : Fin 16) ≠ gIdx[(0 : Fin 8)].b ∧ (1 : Fin 16) ≠ gIdx[(0 : Fin 8)].c ∧
    (1 : Fin 16) ≠ gIdx[(0 : Fin 8)].d := by decide

theorem witness_columnAndDiagonalStepsCommute :
    ([3, 1, 0, 2] : List (Fin 8)).Perm [0, 1, 2, 3] ∧ ([7, 6, 5, 4] : List (Fin 8)).Perm [4, 5, 6, 7] := by decide

/-- A platform of two engines. -/
def pair : Platform := ⟨[given [0x00000000] [] State.reset, given [0x00000010] [] State.reset]⟩

theorem witness_enginesShareNoState :
    ∃ p, pair.step (.run 0) = .next p ∧ (1 : Nat) ≠ (PlatformEvent.run 0).engine := ⟨_, rfl, by decide⟩

theorem witness_enginesAreUnordered :
    ∃ p1 p12, (PlatformEvent.run 0).engine ≠ (PlatformEvent.powerOn 1).engine ∧
      pair.step (.run 0) = .next p1 ∧ p1.step (.powerOn 1) = .next p12 := ⟨_, _, by decide, rfl, rfl⟩

theorem witness_everyInterleavingCompletes :
    Interleaves [[⟨0x00000000, []⟩, (⟨0x00000101, [65]⟩ : Frame)], [⟨0x00000002, []⟩]]
      [⟨0x00000000, []⟩, ⟨0x00000002, []⟩, ⟨0x00000101, [65]⟩] ∧
    (∀ fs ∈ [[⟨0x00000000, []⟩, (⟨0x00000101, [65]⟩ : Frame)], [⟨0x00000002, []⟩]],
      ∀ f ∈ fs, f.bytes.length = announced f.word) ∧
    State.reset.Inv ∧ State.reset.cmdIn = [] ∧ State.reset.dataIn = [] ∧ State.reset.outReady = true :=
  ⟨.take 0 _ _ rfl (.take 1 _ _ rfl (.take 0 _ _ rfl (.done (by decide)))), by decide +kernel,
    fun h => Bool.noConfusion h, rfl, rfl, rfl⟩

end Sys2Proof.Tests
end

section
/-! PROOFS. The operand forms in arithmetic: byte order, rotation and the halves of the counter (00_scope.md R10 to
R12). -/

namespace Sys2Proof.Machine

/-! ### Bytes and words -/

/-- A byte placed above the bits of `y` adds its positional value. -/
theorem toNat_shiftLeft_byte_or (b : Byte) (y : Word) {n : Nat} (hn : n ≤ 24) (hy : y.toNat < 2 ^ n) :
    (b.setWidth 32 <<< n ||| y).toNat = b.toNat * 2 ^ n + y.toNat := by
  have hfit : b.toNat * 2 ^ n < 2 ^ 32 :=
    calc b.toNat * 2 ^ n < 2 ^ 8 * 2 ^ n := Nat.mul_lt_mul_of_pos_right b.isLt (Nat.two_pow_pos n)
      _ ≤ 2 ^ 8 * 2 ^ 24 := Nat.mul_le_mul_left _ (Nat.pow_le_pow_right (by decide) hn)
  have hshift : (b.setWidth 32 <<< n).toNat = b.toNat <<< n := by
    rw [BitVec.toNat_shiftLeft, BitVec.toNat_setWidth_of_le (by decide), Nat.shiftLeft_eq, Nat.mod_eq_of_lt hfit]
  rw [BitVec.toNat_or, hshift, ← Nat.shiftLeft_add_eq_or_of_lt hy, Nat.shiftLeft_eq]

/-- The bytes are placed from the last to the first, each above those already placed. -/
theorem be32_toNat (b0 b1 b2 b3 : Byte) :
    (be32 b0 b1 b2 b3).toNat = b0.toNat * 2 ^ 24 + b1.toNat * 2 ^ 16 + b2.toNat * 2 ^ 8 + b3.toNat := by
  have h3 : (b3.setWidth 32).toNat = b3.toNat := BitVec.toNat_setWidth_of_le (by decide)
  have h2 := toNat_shiftLeft_byte_or b2 (b3.setWidth 32) (n := 8) (by decide) (by omega)
  have h1 := toNat_shiftLeft_byte_or b1 (b2.setWidth 32 <<< 8 ||| b3.setWidth 32) (n := 16) (by decide) (by omega)
  rw [be32, BitVec.or_assoc, BitVec.or_assoc, toNat_shiftLeft_byte_or b0 _ (by decide) (by omega), h1, h2, h3]
  omega

/-- A field of a vector is the quotient by the weight of its lowest bit. -/
theorem extractLsb'_eq_ofNat_div {n : Nat} (x : BitVec n) (start len : Nat) :
    x.extractLsb' start len = BitVec.ofNat len (x.toNat / 2 ^ start) := by
  rw [BitVec.extractLsb', Nat.shiftRight_eq_div_pow]

theorem bytesBe32_eq_quotients (w : Word) :
    bytesBe32 w = [BitVec.ofNat 8 (w.toNat / 2 ^ 24), BitVec.ofNat 8 (w.toNat / 2 ^ 16),
      BitVec.ofNat 8 (w.toNat / 2 ^ 8), BitVec.ofNat 8 w.toNat] := by
  simp only [bytesBe32, extractLsb'_eq_ofNat_div, Nat.pow_zero, Nat.div_one]

theorem extractLsb'_hi32 (t : Counter) {i len : Nat} (h : i + len ≤ 32) :
    (hi32 t).extractLsb' i len = t.extractLsb' (32 + i) len := by
  ext j hj
  have hij : i + j < 32 := by omega
  simp [hi32, hij, Nat.add_assoc]

theorem extractLsb'_lo32 (t : Counter) {i len : Nat} (h : i + len ≤ 32) :
    (lo32 t).extractLsb' i len = t.extractLsb' i len := by
  ext j hj
  have hij : i + j < 32 := by omega
  simp [lo32, hij]

/-- The bytes of the two halves are the counter's own bytes, from bits 63:56 down to bits 7:0. -/
theorem bytesBe64_eq_extracts (l : Counter) :
    bytesBe64 l = [l.extractLsb' 56 8, l.extractLsb' 48 8, l.extractLsb' 40 8, l.extractLsb' 32 8,
      l.extractLsb' 24 8, l.extractLsb' 16 8, l.extractLsb' 8 8, l.extractLsb' 0 8] := by
  simp [bytesBe64, bytesBe32, extractLsb'_hi32, extractLsb'_lo32]

theorem bytesBe64_length (l : Counter) : (bytesBe64 l).length = 8 := rfl

theorem bytesBe64_getElem? (l : Counter) {k : Nat} (hk : k < 8) :
    (bytesBe64 l)[k]? = some (BitVec.ofNat 8 (l.toNat / 2 ^ (56 - 8 * k))) := by
  rw [bytesBe64_eq_extracts, ← extractLsb'_eq_ofNat_div]
  interval_cases k <;> rfl

/-- Settles O50: `be32` is positional, and the bytes of a word or counter are quotients by powers of 2^8. -/
theorem byteOrderConversions : Obligations.ByteOrderConversions :=
  ⟨be32_toNat, bytesBe32_eq_quotients, fun l _ hk => ⟨bytesBe64_length l, bytesBe64_getElem? l hk⟩⟩

/-! ### Rotation -/

theorem rotr_eq_rotateRight (x : Word) {n : Nat} (hn : n < 32) : rotr x n = x.rotateRight n := by
  rw [BitVec.rotateRight_def, Nat.mod_eq_of_lt hn, rotr]

theorem rotr_getLsbD (x : Word) {n i : Nat} (hn : n < 32) (hi : i < 32) :
    (rotr x n).getLsbD i = x.getLsbD ((i + n) % 32) := by
  rw [rotr_eq_rotateRight x hn, BitVec.getLsbD_rotateRight, Nat.mod_eq_of_lt hn]
  by_cases hwrap : i < 32 - n
  · have hmod : (i + n) % 32 = n + i := by omega
    simp [hwrap, hmod]
  · have hmod : (i + n) % 32 = i - (32 - n) := by omega
    simp [hwrap, hmod, hi]

/-! ### The halves of the counter -/

theorem lo32_toNat (t : Counter) : (lo32 t).toNat = t.toNat % 2 ^ 32 := by simp [lo32]

theorem hi32_toNat (t : Counter) : (hi32 t).toNat = t.toNat / 2 ^ 32 := by
  have ht : t.toNat < 2 ^ 64 := t.isLt
  rw [hi32, BitVec.extractLsb'_toNat, Nat.shiftRight_eq_div_pow]
  omega

theorem toNat_eq_hi32_lo32 (t : Counter) : t.toNat = (hi32 t).toNat * 2 ^ 32 + (lo32 t).toNat := by
  rw [hi32_toNat, lo32_toNat]
  omega

theorem counter_sub_toNat (t k : Counter) : (t - k).toNat = (t.toNat + 2 ^ 64 - k.toNat) % 2 ^ 64 := by
  rw [BitVec.toNat_sub', ← Nat.add_sub_assoc k.isLt.le]

theorem lo32_add (t k : Counter) : lo32 (t + k) = lo32 t + lo32 k := by
  apply BitVec.eq_of_toNat_eq
  simp only [BitVec.toNat_add, lo32_toNat]
  omega

theorem lo32_sub (t k : Counter) : lo32 (t - k) = lo32 t - lo32 k := by
  apply BitVec.eq_of_toNat_eq
  simp only [BitVec.toNat_sub, lo32_toNat]
  omega

/-- The high half of a sum takes the carry out of the low half. -/
theorem hi32_add (t k : Counter) :
    hi32 (t + k) = hi32 t + hi32 k + (if (lo32 t).toNat + (lo32 k).toNat < 2 ^ 32 then 0 else 1) := by
  simp only [lo32_toNat]
  apply BitVec.eq_of_toNat_eq
  split
  case isTrue noCarry =>
    simp only [BitVec.ofNat_eq_ofNat, BitVec.add_zero, BitVec.toNat_add, hi32_toNat]
    omega
  case isFalse carry =>
    simp only [BitVec.ofNat_eq_ofNat, BitVec.toNat_add, BitVec.toNat_ofNat, hi32_toNat]
    omega

/-- The high half of a difference gives up 1 when the low half borrows. -/
theorem hi32_sub (t k : Counter) :
    hi32 (t - k) = hi32 t - hi32 k - (if (lo32 k).toNat ≤ (lo32 t).toNat then 0 else 1) := by
  simp only [lo32_toNat]
  apply BitVec.eq_of_toNat_eq
  split
  case isTrue noBorrow =>
    simp only [BitVec.ofNat_eq_ofNat, BitVec.sub_zero, BitVec.toNat_sub, hi32_toNat]
    omega
  case isFalse borrow =>
    simp only [BitVec.ofNat_eq_ofNat, BitVec.toNat_sub, BitVec.toNat_ofNat, hi32_toNat]
    omega

/-- Settles O51: `rotr` is the library's rotation, and each half of a sum or difference is a remainder or quotient by
2^32 of the 64-bit result. -/
theorem wordAndCounterArithmetic : Obligations.WordAndCounterArithmetic :=
  ⟨fun x _ _ _ hn hi => rotr_getLsbD x hn hi, toNat_eq_hi32_lo32,
    fun t k => ⟨BitVec.toNat_add t k, counter_sub_toNat t k⟩,
    fun t k => ⟨lo32_add t k, hi32_add t k, lo32_sub t k, hi32_sub t k⟩⟩

end Sys2Proof.Machine
end

section
/-! PROOFS. What a command does to the engine registers, said once, and the rules derived from it: the invariant of a
configured engine, the configured flag, the width and the salt of a session (10_state.md R23 to R29, R36). -/

namespace Sys2Proof.Machine

/-! ### What a command does to the engine -/

/-- How the engine registers of `t` come from `s` when command `i` takes `s` to `t`. -/
inductive EngineChange (i : Instr) (s t : State) : Prop
  /-- The command waits for data-in bytes or for the host to accept output (U7). -/
  | waited (hst : t = s)
  /-- The command responds and leaves the engine as it is; the faults of R226 among them. -/
  | answered (r : Response) (hi : constructs i = false) (heng : t.eng = s.eng) (hresp : t.resps = s.resps ++ [r])
      (hfault : needsSession i = true → s.eng.cfg = false → r = ⟨.unconfigured, 0⟩)
  /-- NEW, or NEWS with 16 bytes, constructs a session (R155, R156). -/
  | opened (w : Width) (salt : Salt) (hi : constructs i = true) (heng : t.eng = (openSession w salt s).eng)
      (hresp : t.resps = s.resps ++ [⟨.ok, 0⟩])
  /-- RESET of a configured engine restarts the session (R157). -/
  | restarted (hcfg : s.eng.cfg = true) (heng : t.eng = (restartSession s).eng)
  /-- WRITE of a configured engine absorbs its bytes (R153). -/
  | absorbed (bytes : List Byte) (hcfg : s.eng.cfg = true) (heng : t.eng = s.eng.absorbAll bytes)

theorem exec_engineChange {i : Instr} {s t : State} (h : exec i s = .next t) : EngineChange i s t := by
  cases i with
  | new w =>
    obtain rfl := execNew_next h
    exact .opened w _ rfl rfl rfl
  | news w len =>
    obtain ⟨-, hst⟩ | ⟨-, hlen, rfl⟩ | ⟨-, rfl, rfl⟩ := execNews_next h
    · exact .waited hst
    · exact .answered _ (decide_eq_false hlen) rfl rfl nofun
    · exact .opened w _ rfl rfl rfl
  | write len =>
    obtain ⟨-, hst⟩ | ⟨-, -, rfl⟩ | ⟨-, hcfg, -, rfl⟩ := execWrite_next h
    · exact .waited hst
    · exact .answered _ rfl rfl rfl fun _ _ => rfl
    · exact .absorbed _ hcfg rfl
  | sum =>
    obtain ⟨-, rfl⟩ | ⟨-, -, hst⟩ | ⟨hcfg, -, -, rfl⟩ := execSum_next h
    · exact .answered _ rfl rfl rfl fun _ _ => rfl
    · exact .waited hst
    · exact .answered _ rfl rfl rfl fun _ hcfg' => by simp [hcfg] at hcfg'
  | reset =>
    obtain ⟨-, rfl⟩ | ⟨hcfg, rfl⟩ := execReset_next h
    · exact .answered _ rfl rfl rfl fun _ _ => rfl
    · exact .restarted hcfg rfl
  | blocksize =>
    obtain rfl := execBlocksize_next h
    exact .answered _ rfl rfl rfl nofun
  | size =>
    obtain ⟨-, rfl⟩ | ⟨hcfg, rfl⟩ := execSize_next h
    · exact .answered _ rfl rfl rfl fun _ _ => rfl
    · exact .answered _ rfl rfl rfl fun _ hcfg' => by simp [hcfg] at hcfg'

/-- A step leaves the engine as it is, or runs the command on the port. -/
theorem step_engineChange {s t : State} (h : step s = .next t) :
    t.eng = s.eng ∨ ∃ (word : Word) (rest : List Word) (i : Instr),
      s.cmdIn = word :: rest ∧ decode word = .ok i ∧ EngineChange i s t := by
  obtain ⟨-, -, rfl⟩ | ⟨word, rest, hcmd, ⟨-, -, rfl⟩ | ⟨i, hdec, hexec⟩⟩ := step_next h
  · exact .inl rfl
  · exact .inl rfl
  · exact .inr ⟨word, rest, i, hcmd, hdec, exec_engineChange hexec⟩

/-! ### The invariant of a configured engine -/

theorem Engine.powerOn_inv : Engine.powerOn.Inv := nofun

theorem openSession_inv (w : Width) (salt : Salt) (s : State) : (openSession w salt s).eng.Inv :=
  fun _ => ⟨Nat.zero_le _, rfl, rfl⟩

theorem restartSession_inv (s : State) : (restartSession s).eng.Inv := fun _ => ⟨Nat.zero_le _, rfl, rfl⟩

theorem counter_add_512_mod (t : Counter) (h : t.toNat % 512 = 0) : (t + 512).toNat % 512 = 0 := by
  have hblock : (512 : Counter).toNat = 512 := rfl
  rw [BitVec.toNat_add, hblock]
  omega

/-- One byte either lengthens the buffer to at most 63 bytes, or completes a block, which empties it. -/
theorem Engine.Inv.absorb {e : Engine} (h : e.Inv) (b : Byte) : (e.absorb b).Inv := by
  intro hcfg
  obtain ⟨hnx, hnullt, ht⟩ := h (by simpa using hcfg)
  by_cases hfull : e.nx.val = 63
  · rw [absorb_of_full e b hfull]
    exact ⟨Nat.zero_le _, hnullt, counter_add_512_mod e.t ht⟩
  · rw [absorb_of_lt e b (by omega)]
    have hpush := push_nx_val e b hnx
    exact ⟨by omega, hnullt, ht⟩

theorem Engine.Inv.absorbAll {e : Engine} (h : e.Inv) (bytes : List Byte) : (e.absorbAll bytes).Inv := by
  induction bytes generalizing e with
  | nil => exact h
  | cons b bytes ih => exact ih (h.absorb b)

theorem EngineChange.inv {i : Instr} {s t : State} (h : EngineChange i s t) (hs : s.eng.Inv) : t.eng.Inv := by
  cases h with
  | waited hst => exact hst ▸ hs
  | answered _ _ heng => exact heng ▸ hs
  | opened w salt _ heng => exact heng ▸ openSession_inv w salt s
  | restarted _ heng => exact heng ▸ restartSession_inv s
  | absorbed bytes _ heng => exact heng ▸ hs.absorbAll bytes

/-- Settles O41, by the cases of what a command does to the engine. -/
theorem engineInvariantKept : Obligations.EngineInvariantKept := by
  intro s t hs hstep
  obtain heng | ⟨_, _, _, _, _, hchange⟩ := step_engineChange hstep
  · rwa [State.Inv, heng]
  · exact hchange.inv hs

/-- Settles O40: the engine is unconfigured, and the invariant speaks of configured engines. -/
theorem engineInvariantAtReset : Obligations.EngineInvariantAtReset :=
  ⟨Engine.powerOn_inv, fun _ => Engine.powerOn_inv⟩

/-! ### The configured flag -/

theorem EngineChange.cfg_kept {i : Instr} {s t : State} (h : EngineChange i s t) (hs : s.eng.cfg = true) :
    t.eng.cfg = true := by
  cases h with
  | waited hst => exact hst ▸ hs
  | answered _ _ heng => exact heng ▸ hs
  | opened _ _ _ heng => rw [heng, openSession_eng]
  | restarted _ heng => rw [heng, restartSession_eng]; exact hs
  | absorbed bytes _ heng => rw [heng, absorbAll_cfg]; exact hs

/-- A constructing command that responds opens a session: with 16 bytes NEWS has no other response. -/
theorem EngineChange.cfg_of_constructs {i : Instr} {s t : State} (h : EngineChange i s t)
    (hi : constructs i = true) (hresp : t.resps = s.resps ++ [⟨.ok, 0⟩]) : t.eng.cfg = true := by
  cases h with
  | waited hst => simp [hst] at hresp
  | answered _ hi' => simp [hi] at hi'
  | opened _ _ _ heng => rw [heng, openSession_eng]
  | restarted hcfg heng => rw [heng, restartSession_eng]; exact hcfg
  | absorbed _ hcfg heng => rw [heng, absorbAll_cfg]; exact hcfg

theorem EngineChange.of_cfg_set {i : Instr} {s t : State} (h : EngineChange i s t)
    (hs : s.eng.cfg = false) (ht : t.eng.cfg = true) :
    t.resps = s.resps ++ [⟨.ok, 0⟩] ∧ constructs i = true := by
  cases h with
  | waited hst => simp [hst, hs] at ht
  | answered _ _ heng => simp [heng, hs] at ht
  | opened _ _ hi _ hresp => exact ⟨hresp, hi⟩
  | restarted hcfg => simp [hs] at hcfg
  | absorbed _ hcfg => simp [hs] at hcfg

theorem constructs_eq_false_of_needsSession {i : Instr} (h : needsSession i = true) : constructs i = false := by
  cases i with
  | new _ | news _ _ | blocksize => cases h
  | write _ | sum | reset | size => rfl

theorem EngineChange.of_unconfigured {i : Instr} {s t : State} (h : EngineChange i s t)
    (hi : needsSession i = true) (hs : s.eng.cfg = false) (hts : t ≠ s) :
    t.eng = s.eng ∧ t.resps = s.resps ++ [⟨.unconfigured, 0⟩] := by
  cases h with
  | waited hst => exact absurd hst hts
  | answered r _ heng hresp hfault => exact ⟨heng, hfault hi hs ▸ hresp⟩
  | opened _ _ hi' => simp [constructs_eq_false_of_needsSession hi] at hi'
  | restarted hcfg => simp [hs] at hcfg
  | absorbed _ hcfg => simp [hs] at hcfg

theorem step_cfg_set {s t : State} (h : step s = .next t) (hs : s.eng.cfg = false) (ht : t.eng.cfg = true) :
    t.resps = s.resps ++ [⟨.ok, 0⟩] ∧ ∃ (word : Word) (rest : List Word) (i : Instr),
      s.cmdIn = word :: rest ∧ decode word = .ok i ∧ constructs i = true := by
  obtain heng | ⟨word, rest, i, hcmd, hdec, hchange⟩ := step_engineChange h
  · simp [heng, hs] at ht
  · obtain ⟨hresp, hi⟩ := hchange.of_cfg_set hs ht
    exact ⟨hresp, word, rest, i, hcmd, hdec, hi⟩

/-- Settles O45, clause by clause from what a command does to the engine. -/
theorem configuredFlagRules : Obligations.ConfiguredFlagRules :=
  ⟨rfl, fun _ => rfl,
    fun _ _ _ h => (exec_engineChange h).cfg_kept,
    fun _ _ _ hi h => (exec_engineChange h).cfg_of_constructs hi,
    fun _ _ h => step_cfg_set h,
    fun _ _ _ hi hs h => (exec_engineChange h).of_unconfigured hi hs⟩

/-! ### The width and the salt -/

theorem EngineChange.width_salt {i : Instr} {s t : State} (h : EngineChange i s t) :
    constructs i = true ∨ (t.eng.w = s.eng.w ∧ t.eng.salt = s.eng.salt) := by
  cases h with
  | waited hst => rw [hst]; exact .inr ⟨rfl, rfl⟩
  | answered _ _ heng => rw [heng]; exact .inr ⟨rfl, rfl⟩
  | opened _ _ hi => exact .inl hi
  | restarted _ heng => rw [heng]; exact .inr ⟨rfl, rfl⟩
  | absorbed bytes _ heng => rw [heng]; exact .inr ⟨absorbAll_w s.eng bytes, absorbAll_salt s.eng bytes⟩

/-- Settles O46: a step that runs no constructing command keeps both registers. -/
theorem widthAndSaltFixedInSession : Obligations.WidthAndSaltFixedInSession := by
  intro s t hstep hdiff
  obtain heng | ⟨word, rest, i, hcmd, hdec, hchange⟩ := step_engineChange hstep
  · simp [heng] at hdiff
  · obtain hi | ⟨hw, hsalt⟩ := hchange.width_salt
    · exact ⟨word, rest, i, hcmd, hdec, hi⟩
    · simp [hw, hsalt] at hdiff

end Sys2Proof.Machine
end

section
/-! PROOFS. Machines that differ only in what the spec leaves unspecified cannot be told apart: each operation keeps the
agreement, so each command, each step and each run does (10_state.md R26, R37; 93_implementation_defined.md U1, U2). -/

namespace Sys2Proof.Machine

/-! ### Engines in the same session -/

/-- Two engines in the same session whose buffer has room for a byte, as it has between commands (R26). -/
structure Engine.SameOpenSession (e e' : Engine) : Prop where
  same : e.SameSession e'
  room : e.nx.val ≤ 63

/-- A byte that fills the buffer leaves none of the block unspecified, so both engines compress the same block. -/
theorem Engine.SameOpenSession.absorb {e e' : Engine} (h : e.SameOpenSession e') (b : Byte) :
    (e.absorb b).SameOpenSession (e'.absorb b) := by
  obtain ⟨⟨hw, hh, hsalt, ht, hnx, hnullt, hx⟩, hroom⟩ := h
  have hroom' : e'.nx.val ≤ 63 := hnx ▸ hroom
  have hbytes : e.bufferBytes = e'.bufferBytes := bufferBytes_eq_of_sameBytes hnx hx
  by_cases hfull : e.nx.val = 63
  · have hfull' : e'.nx.val = 63 := hnx ▸ hfull
    have hblock : (e.push b).x = (e'.push b).x := by
      rw [push_x_of_full e b hfull, push_x_of_full e' b hfull', hbytes]
    rw [absorb_of_full e b hfull, absorb_of_full e' b hfull']
    refine ⟨⟨hw, ?_, hsalt, ?_, rfl, hnullt, nofun⟩, Nat.zero_le _⟩
    · simp only [Engine.block_h, Engine.push_h, Engine.push_salt, Engine.push_t, Engine.push_nullt, hh, hsalt, ht,
        hnullt, hblock]
    · simp only [Engine.block_t, Engine.push_t, ht]
  · rw [absorb_of_lt e b (by omega), absorb_of_lt e' b (by omega)]
    have hnxPush : (e.push b).nx = (e'.push b).nx := by rw [Engine.push_nx, Engine.push_nx, hnx]
    have hbytesPush : (e.push b).bufferBytes = (e'.push b).bufferBytes := by
      rw [push_bufferBytes e b hroom, push_bufferBytes e' b hroom', hbytes]
    have hroomPush : (e.push b).nx.val ≤ 63 := by rw [push_nx_val e b hroom]; omega
    exact ⟨⟨hw, hh, hsalt, ht, hnxPush, hnullt, sameBytes_of_bufferBytes hnxPush hbytesPush⟩, hroomPush⟩

theorem Engine.SameOpenSession.absorbAll {e e' : Engine} (h : e.SameOpenSession e') (bytes : List Byte) :
    (e.absorbAll bytes).SameOpenSession (e'.absorbAll bytes) := by
  induction bytes generalizing e e' with
  | nil => exact h
  | cons b bytes ih => exact ih (h.absorb b)

theorem Engine.SameOpenSession.backOff {e e' : Engine} (h : e.SameOpenSession e') (k : Counter) :
    (e.backOff k).SameOpenSession (e'.backOff k) := by
  obtain ⟨⟨hw, hh, hsalt, ht, hrest⟩, hroom⟩ := h
  exact ⟨⟨hw, hh, hsalt, congrArg (· - k) ht, hrest⟩, hroom⟩

theorem Engine.SameOpenSession.setNullt {e e' : Engine} (h : e.SameOpenSession e') :
    e.setNullt.SameOpenSession e'.setNullt := by
  obtain ⟨⟨hw, hh, hsalt, ht, hnx, -, hx⟩, hroom⟩ := h
  exact ⟨⟨hw, hh, hsalt, ht, hnx, rfl, hx⟩, hroom⟩

theorem Engine.SameOpenSession.w_eq {e e' : Engine} (h : e.SameOpenSession e') : e.w = e'.w := by
  obtain ⟨⟨hw, -⟩, -⟩ := h
  exact hw

theorem Engine.SameOpenSession.h_eq {e e' : Engine} (h : e.SameOpenSession e') : e.h = e'.h := by
  obtain ⟨⟨-, hh, -⟩, -⟩ := h
  exact hh

theorem Engine.SameOpenSession.nx_eq {e e' : Engine} (h : e.SameOpenSession e') : e.nx = e'.nx := by
  obtain ⟨⟨-, -, -, -, hnx, -⟩, -⟩ := h
  exact hnx

theorem Engine.SameOpenSession.bitLength_eq {e e' : Engine} (h : e.SameOpenSession e') :
    e.bitLength = e'.bitLength := by
  obtain ⟨⟨-, -, -, ht, hnx, -⟩, -⟩ := h
  rw [Engine.bitLength, Engine.bitLength, ht, hnx]

/-! ### The digest -/

theorem Engine.SameOpenSession.padFolded {e e' : Engine} (h : e.SameOpenSession e') :
    e.padFolded.SameOpenSession e'.padFolded := by
  rw [Engine.padFolded, Engine.padFolded, h.w_eq]
  exact (h.backOff 8).absorb _

theorem Engine.SameOpenSession.padOneBlock {e e' : Engine} (h : e.SameOpenSession e') :
    e.padOneBlock.SameOpenSession e'.padOneBlock := by
  simp only [Engine.padOneBlock, ← h.nx_eq]
  split
  case isTrue empty => exact (h.setNullt.backOff _).absorbAll _
  case isFalse nonempty => exact (h.backOff _).absorbAll _

theorem Engine.SameOpenSession.padTwoBlocks {e e' : Engine} (h : e.SameOpenSession e') :
    e.padTwoBlocks.SameOpenSession e'.padTwoBlocks := by
  simp only [Engine.padTwoBlocks, ← h.nx_eq]
  exact ((((h.backOff _).absorbAll _).backOff 440).absorbAll _).setNullt

theorem Engine.SameOpenSession.padDomain {e e' : Engine} (h : e.SameOpenSession e') :
    e.padDomain.SameOpenSession e'.padDomain := by
  rw [Engine.padDomain, Engine.padDomain, h.w_eq]
  exact (h.absorb _).backOff 8

theorem Engine.SameOpenSession.padded {e e' : Engine} (h : e.SameOpenSession e') :
    e.padded.SameOpenSession e'.padded := by
  simp only [Engine.padded, ← h.nx_eq]
  split_ifs
  · exact h.padFolded
  · exact h.padOneBlock.padDomain
  · exact h.padTwoBlocks.padDomain

theorem Engine.SameOpenSession.finalize {e e' : Engine} (h : e.SameOpenSession e') :
    e.finalize.SameOpenSession e'.finalize := by
  rw [Engine.finalize, Engine.finalize, h.bitLength_eq]
  exact (h.padded.backOff 64).absorbAll _

theorem Engine.SameOpenSession.digest_eq {e e' : Engine} (h : e.SameOpenSession e') : e.digest = e'.digest := by
  rw [Engine.digest, Engine.digest, h.w_eq, h.finalize.h_eq]

/-! ### The operations on agreeing machines -/

theorem respond_agrees {s s' : State} (h : s.Agrees s') (st : Status) (v : Word) :
    (respond st v s).Agrees (respond st v s') := by
  obtain ⟨heng, hcmd, hin, hout, hresp, hready⟩ := h
  exact ⟨heng, congrArg List.tail hcmd, hin, hout, congrArg (· ++ [Response.mk st v]) hresp, hready⟩

theorem consume_agrees {s s' : State} (h : s.Agrees s') (len : Nat) : (consume len s).Agrees (consume len s') := by
  obtain ⟨heng, hcmd, hin, hrest⟩ := h
  exact ⟨heng, hcmd, congrArg (List.drop len) hin, hrest⟩

theorem emit_agrees {s s' : State} (h : s.Agrees s') (bytes : List Byte) :
    (emit bytes s).Agrees (emit bytes s') := by
  obtain ⟨heng, hcmd, hin, hout, hrest⟩ := h
  exact ⟨heng, hcmd, hin, congrArg (· ++ bytes) hout, hrest⟩

theorem setEngine_agrees {s s' : State} {e e' : Engine} (h : s.Agrees s') (he : e.Agrees e') :
    (setEngine e s).Agrees (setEngine e' s') := by
  obtain ⟨-, hports⟩ := h
  exact ⟨he, hports⟩

theorem openSession_agrees {s s' : State} (h : s.Agrees s') (w : Width) (salt : Salt) :
    (openSession w salt s).Agrees (openSession w salt s') := by
  obtain ⟨-, hports⟩ := h
  exact ⟨⟨rfl, fun _ => ⟨rfl, rfl, rfl, rfl, rfl, rfl, nofun⟩⟩, hports⟩

theorem restartSession_agrees {s s' : State} (h : s.Agrees s') :
    (restartSession s).Agrees (restartSession s') := by
  obtain ⟨⟨hcfg, hsession⟩, hports⟩ := h
  refine ⟨⟨hcfg, fun hc => ?_⟩, hports⟩
  obtain ⟨hw, -, hsalt, -⟩ := hsession hc
  exact ⟨hw, congrArg iv hw, hsalt, rfl, rfl, rfl, nofun⟩

/-! ### Waiting and checking on agreeing machines -/

/-- The two bodies are compared only in a configured engine, so on machines in the same session. -/
theorem whenConfigured_agrees {s s' : State} {go go' : Result} (h : s.Agrees s')
    (hgo : s.eng.SameSession s'.eng → resultsAgree go go') :
    resultsAgree (whenConfigured s go) (whenConfigured s' go') := by
  have ⟨⟨hcfg, hsession⟩, _⟩ := h
  cases hc : s.eng.cfg
  case false =>
    rw [whenConfigured_false hc, whenConfigured_false (hcfg ▸ hc)]
    exact respond_agrees h _ _
  case true =>
    rw [whenConfigured_true hc, whenConfigured_true (hcfg ▸ hc)]
    exact hgo (hsession hc)

theorem whenBufferOpen_agrees {s s' : State} {go go' : Result} (h : s.eng.SameSession s'.eng)
    (hgo : s.eng.SameOpenSession s'.eng → resultsAgree go go') :
    resultsAgree (whenBufferOpen s go) (whenBufferOpen s' go') := by
  have ⟨_, _, _, _, hnx, _⟩ := h
  by_cases hfull : s.eng.nx = 64
  · rw [whenBufferOpen, whenBufferOpen, if_pos hfull, if_pos (hnx ▸ hfull)]
    rfl
  · have hroom : s.eng.nx.val ≤ 63 := by
      have hval : s.eng.nx.val ≠ 64 := fun hval => hfull (Fin.ext hval)
      omega
    rw [whenBufferOpen_of_le hroom, whenBufferOpen_of_le (hnx ▸ hroom)]
    exact hgo ⟨h, hroom⟩

theorem whenOutReady_agrees {s s' : State} {go go' : Result} (h : s.Agrees s') (hgo : resultsAgree go go') :
    resultsAgree (whenOutReady s go) (whenOutReady s' go') := by
  have ⟨_, _, _, _, _, hready⟩ := h
  cases ho : s.outReady
  case false =>
    rw [whenOutReady_false ho, whenOutReady_false (hready ▸ ho)]
    exact h
  case true =>
    rw [whenOutReady_true ho, whenOutReady_true (hready ▸ ho)]
    exact hgo

theorem withData_agrees {len : Nat} {s s' : State} {go : List Byte → State → Result} (h : s.Agrees s')
    (hgo : ∀ bytes, resultsAgree (go bytes (consume len s)) (go bytes (consume len s'))) :
    resultsAgree (withData len s go) (withData len s' go) := by
  have ⟨_, _, hin, _⟩ := h
  by_cases hlen : s.dataIn.length < len
  · rw [withData_of_lt hlen, withData_of_lt (hin ▸ hlen)]
    exact h
  · rw [withData_of_le (by omega), withData_of_le (by rw [← hin]; omega), ← hin]
    exact hgo _

/-! ### Commands, steps and runs -/

theorem execNew_agrees {s s' : State} (h : s.Agrees s') (w : Width) :
    resultsAgree (execNew w s) (execNew w s') :=
  respond_agrees (openSession_agrees h w _) _ _

theorem execNews_agrees {s s' : State} (h : s.Agrees s') (w : Width) (len : Nat) :
    resultsAgree (execNews w len s) (execNews w len s') := by
  refine withData_agrees h fun bytes => ?_
  have hconsume := consume_agrees h len
  split
  · exact respond_agrees (openSession_agrees hconsume w _) _ _
  · exact respond_agrees hconsume _ _

theorem execWrite_agrees {s s' : State} (h : s.Agrees s') (len : Nat) :
    resultsAgree (execWrite len s) (execWrite len s') := by
  refine withData_agrees h fun bytes => ?_
  have hconsume := consume_agrees h len
  refine whenConfigured_agrees hconsume fun hsession => whenBufferOpen_agrees hsession fun hopen => ?_
  have ⟨⟨hcfg, _⟩, _⟩ := hconsume
  have habsorbed : ((consume len s).eng.absorbAll bytes).Agrees ((consume len s').eng.absorbAll bytes) :=
    ⟨by rwa [absorbAll_cfg, absorbAll_cfg], fun _ => (hopen.absorbAll bytes).same⟩
  exact respond_agrees (setEngine_agrees hconsume habsorbed) _ _

theorem execSum_agrees {s s' : State} (h : s.Agrees s') : resultsAgree (execSum s) (execSum s') := by
  refine whenConfigured_agrees h fun hsession => whenOutReady_agrees h <|
    whenBufferOpen_agrees hsession fun hopen => ?_
  rw [hopen.digest_eq]
  exact respond_agrees (emit_agrees h _) _ _

theorem execReset_agrees {s s' : State} (h : s.Agrees s') : resultsAgree (execReset s) (execReset s') :=
  whenConfigured_agrees h fun _ => respond_agrees (restartSession_agrees h) _ _

theorem execBlocksize_agrees {s s' : State} (h : s.Agrees s') :
    resultsAgree (execBlocksize s) (execBlocksize s') :=
  respond_agrees h _ _

theorem execSize_agrees {s s' : State} (h : s.Agrees s') : resultsAgree (execSize s) (execSize s') := by
  refine whenConfigured_agrees h fun hsession => ?_
  obtain ⟨hw, -⟩ := hsession
  rw [hw]
  exact respond_agrees h _ _

theorem exec_agrees {s s' : State} (h : s.Agrees s') (i : Instr) : resultsAgree (exec i s) (exec i s') := by
  cases i with
  | new w => exact execNew_agrees h w
  | news w len => exact execNews_agrees h w len
  | write len => exact execWrite_agrees h len
  | sum => exact execSum_agrees h
  | reset => exact execReset_agrees h
  | blocksize => exact execBlocksize_agrees h
  | size => exact execSize_agrees h

theorem noCommand_agrees {s s' : State} (h : s.Agrees s') : resultsAgree (noCommand s) (noCommand s') := by
  have ⟨_, _, hin, _⟩ := h
  unfold noCommand
  rw [← hin]
  split
  · exact h
  · rfl

theorem step_agrees {s s' : State} (h : s.Agrees s') : resultsAgree (step s) (step s') := by
  have ⟨_, hcmd, _⟩ := h
  unfold step
  rw [← hcmd]
  split
  · exact noCommand_agrees h
  · split
    · exact exec_agrees h _
    · exact respond_agrees h _ _

theorem resultsAgree_cases {r r' : Result} (h : resultsAgree r r') :
    (∃ t t', r = .next t ∧ r' = .next t' ∧ t.Agrees t') ∨ (∃ f, r = .fault f ∧ r' = .fault f) ∨
      ∃ f, r = .refused f ∧ r' = .refused f := by
  unfold resultsAgree at h
  split at h
  · exact .inl ⟨_, _, rfl, rfl, h⟩
  · exact .inr (.inl ⟨_, rfl, h ▸ rfl⟩)
  · exact .inr (.inr ⟨_, rfl, h ▸ rfl⟩)
  · exact h.elim

theorem run_succ_of_fault {n : Nat} {s : State} {f : Fault} (h : step s = .fault f) :
    Host.Core.run Sys2Proof.core (n + 1) s = .fault f := by
  have hcore : Sys2Proof.core.step s = .fault f := h
  simp only [Host.Core.run, hcore]

theorem run_succ_of_refused {n : Nat} {s : State} {r : Refusal} (h : step s = .refused r) :
    Host.Core.run Sys2Proof.core (n + 1) s = .refused r := by
  have hcore : Sys2Proof.core.step s = .refused r := h
  simp only [Host.Core.run, hcore]

/-- Settles O47, by induction on the number of steps: one step of agreeing machines gives agreeing machines, or stops
both alike. -/
theorem unspecifiedStateUnobservable : Obligations.UnspecifiedStateUnobservable := by
  intro n
  induction n with
  | zero => exact fun _ _ h => h
  | succ n ih =>
    intro s s' h
    obtain ⟨t, t', hs, hs', ht⟩ | ⟨f, hs, hs'⟩ | ⟨r, hs, hs'⟩ := resultsAgree_cases (step_agrees h)
    · rw [run_succ hs, run_succ hs']
      exact ih t t' ht
    · rw [run_succ_of_fault hs, run_succ_of_fault hs']
      rfl
    · rw [run_succ_of_refused hs, run_succ_of_refused hs']
      rfl

end Sys2Proof.Machine
end

section
/-! PROOFS. How a command ends: it waits, or it responds once, its word and its data bytes leaving the ports
(20_memory.md R57, R60). -/

namespace Sys2Proof.Machine

/-- How `exec i s = .next t` ends: only a missing input makes a command wait, and a response takes exactly the data
bytes of the command. -/
inductive CommandEnd (i : Instr) (s t : State) : Prop
  /-- The command waits for data-in bytes or for the host to accept output (U7). -/
  | waited (hst : t = s) (hinput : s.dataIn.length < i.dataLen ∨ s.outReady = false)
  /-- The command responds (R13, R60). -/
  | responded (st : Status) (value : Word) (out : List Byte) (hlen : i.dataLen ≤ s.dataIn.length)
      (h : Responded s t st value i.dataLen out)

/-- A response after an operation on `s` that emits nothing and leaves the ports but for `taken` data bytes; for the
model's operations the premises are definitional. -/
theorem responded_of_silent {s u : State} {taken : Nat} (st : Status) (value : Word)
    (hcmd : u.cmdIn = s.cmdIn := by rfl) (hin : u.dataIn = s.dataIn.drop taken := by rfl)
    (hout : u.dataOut = s.dataOut := by rfl) (hresp : u.resps = s.resps := by rfl)
    (hready : u.outReady = s.outReady := by rfl) : Responded s (respond st value u) st value taken [] :=
  ⟨by rw [respond_cmdIn, hcmd], hin, by rw [respond_dataOut, hout, List.append_nil], by rw [respond_resps, hresp],
    hready⟩

theorem exec_commandEnd {i : Instr} {s t : State} (h : exec i s = .next t) : CommandEnd i s t := by
  cases i with
  | new w =>
    obtain rfl := execNew_next h
    exact .responded _ _ _ (Nat.zero_le _) (responded_of_silent _ _)
  | news w len =>
    obtain ⟨hlt, hst⟩ | ⟨hle, -, rfl⟩ | ⟨hle, -, rfl⟩ := execNews_next h
    · exact .waited hst (.inl hlt)
    · exact .responded _ _ _ hle (responded_of_silent _ _)
    · exact .responded _ _ _ hle (responded_of_silent _ _)
  | write len =>
    obtain ⟨hlt, hst⟩ | ⟨hle, -, rfl⟩ | ⟨hle, -, -, rfl⟩ := execWrite_next h
    · exact .waited hst (.inl hlt)
    · exact .responded _ _ _ hle (responded_of_silent _ _)
    · exact .responded _ _ _ hle (responded_of_silent _ _)
  | sum =>
    obtain ⟨-, rfl⟩ | ⟨-, hready, hst⟩ | ⟨-, -, -, rfl⟩ := execSum_next h
    · exact .responded _ _ _ (Nat.zero_le _) (responded_of_silent _ _)
    · exact .waited hst (.inr hready)
    · exact .responded _ _ s.eng.digest (Nat.zero_le _) ⟨rfl, rfl, rfl, rfl, rfl⟩
  | reset =>
    obtain ⟨-, rfl⟩ | ⟨-, rfl⟩ := execReset_next h
    · exact .responded _ _ _ (Nat.zero_le _) (responded_of_silent _ _)
    · exact .responded _ _ _ (Nat.zero_le _) (responded_of_silent _ _)
  | blocksize =>
    obtain rfl := execBlocksize_next h
    exact .responded _ _ _ (Nat.zero_le _) (responded_of_silent _ _)
  | size =>
    obtain ⟨-, rfl⟩ | ⟨-, rfl⟩ := execSize_next h
    · exact .responded _ _ _ (Nat.zero_le _) (responded_of_silent _ _)
    · exact .responded _ _ _ (Nat.zero_le _) (responded_of_silent _ _)

theorem announced_of_ok {word : Word} {i : Instr} (h : decode word = .ok i) : announced word = i.dataLen := by
  rw [announced, h]

theorem announced_of_error {word : Word} {e : IllegalWord} (h : decode word = .error e) : announced word = 0 := by
  rw [announced, h]

/-- A step holds the state, for want of a command or of the input a command waits for, or it ends the command of the
word on the port with one response, taking the bytes that word announces. -/
theorem step_holds_or_responds {s t : State} (h : step s = .next t) :
    (t = s ∧ (s.cmdIn = [] ∨ s.outReady = false ∨
      ∃ (word : Word) (rest : List Word), s.cmdIn = word :: rest ∧ s.dataIn.length < announced word)) ∨
    ∃ (word : Word) (rest : List Word) (st : Status) (value : Word) (out : List Byte), s.cmdIn = word :: rest ∧
      announced word ≤ s.dataIn.length ∧ Responded s t st value (announced word) out := by
  obtain ⟨hcmd, -, rfl⟩ | ⟨word, rest, hcmd, ⟨e, hdec, rfl⟩ | ⟨i, hdec, hexec⟩⟩ := step_next h
  · exact .inl ⟨rfl, .inl hcmd⟩
  · refine .inr ⟨word, rest, .illegalCommand, 0, [], hcmd, ?_⟩
    rw [announced_of_error hdec]
    exact ⟨Nat.zero_le _, responded_of_silent _ _⟩
  · have hlen := announced_of_ok hdec
    cases exec_commandEnd hexec with
    | waited hst hinput =>
      obtain hlt | hready := hinput
      · exact .inl ⟨hst, .inr (.inr ⟨word, rest, hcmd, hlen ▸ hlt⟩)⟩
      · exact .inl ⟨hst, .inr (.inl hready)⟩
    | responded st value out hle hresp =>
      exact .inr ⟨word, rest, st, value, out, hcmd, hlen ▸ hle, hlen ▸ hresp⟩

/-- Settles O10, by the two ways a step can end. -/
theorem oneResponsePerCommand : Obligations.OneResponsePerCommand := by
  intro s t hstep
  obtain ⟨hst, -⟩ | ⟨word, rest, st, value, out, hcmd, hle, hresp⟩ := step_holds_or_responds hstep
  · exact .inl hst
  · exact .inr ⟨hcmd ▸ List.cons_ne_nil word rest, st, value, announced word, out, hle, hresp⟩

end Sys2Proof.Machine
end

section
/-! PROOFS. Idempotent commands. SUM, SIZE and BLOCKSIZE add to the histories only, so a repeated one
adds the same again; a repeated RESET leaves the same specified state (20_memory.md R56). -/

namespace Sys2Proof.Machine

/-! ### SUM, SIZE and BLOCKSIZE only add to the histories -/

/-- From `s` to `t` the responses `rs` and the emitted bytes `out` are added, and of the rest only the command port may
change. -/
structure OnlyAdds (s t : State) (rs : List Response) (out : List Byte) : Prop where
  eng : t.eng = s.eng
  dataIn : t.dataIn = s.dataIn
  outReady : t.outReady = s.outReady
  freeNext : t.freeNext = s.freeNext
  resps : t.resps = s.resps ++ rs
  dataOut : t.dataOut = s.dataOut ++ out

theorem onlyAdds_refl (s : State) : OnlyAdds s s [] [] :=
  ⟨rfl, rfl, rfl, rfl, (List.append_nil _).symm, (List.append_nil _).symm⟩

theorem respond_onlyAdds (st : Status) (value : Word) (s : State) :
    OnlyAdds s (respond st value s) [⟨st, value⟩] [] :=
  ⟨rfl, rfl, rfl, rfl, rfl, (List.append_nil _).symm⟩

/-- What SUM adds is determined by the engine and the pin. -/
theorem execSum_onlyAdds (e : Engine) (ready : Bool) : ∃ (rs : List Response) (out : List Byte),
    ∀ s t : State, s.eng = e → s.outReady = ready → execSum s = .next t → OnlyAdds s t rs out := by
  cases hcfg : e.cfg
  case false =>
    refine ⟨[⟨.unconfigured, 0⟩], [], ?_⟩
    rintro s t rfl - h
    rw [execSum, whenConfigured_false hcfg] at h
    obtain rfl := Host.Outcome.next.inj h
    exact respond_onlyAdds _ _ s
  case true =>
    cases ready
    case false =>
      refine ⟨[], [], ?_⟩
      rintro s t rfl hready h
      rw [execSum, whenConfigured_true hcfg, whenOutReady_false hready] at h
      obtain rfl := Host.Outcome.next.inj h
      exact onlyAdds_refl s
    case true =>
      refine ⟨[⟨.ok, 0⟩], e.digest, ?_⟩
      rintro s t rfl hready h
      rw [execSum, whenConfigured_true hcfg, whenOutReady_true hready] at h
      obtain ⟨-, h⟩ := whenBufferOpen_next h
      obtain rfl := Host.Outcome.next.inj h
      exact ⟨rfl, rfl, rfl, rfl, rfl, rfl⟩

/-- What SIZE adds is determined by the engine, and it emits no byte. -/
theorem execSize_onlyAdds (e : Engine) : ∃ rs : List Response,
    ∀ s t : State, s.eng = e → execSize s = .next t → OnlyAdds s t rs [] := by
  cases hcfg : e.cfg
  case false =>
    refine ⟨[⟨.unconfigured, 0⟩], ?_⟩
    rintro s t rfl h
    rw [execSize, whenConfigured_false hcfg] at h
    obtain rfl := Host.Outcome.next.inj h
    exact respond_onlyAdds _ _ s
  case true =>
    refine ⟨[⟨.ok, BitVec.ofNat 32 (digestBytes e.w)⟩], ?_⟩
    rintro s t rfl h
    rw [execSize, whenConfigured_true hcfg] at h
    obtain rfl := Host.Outcome.next.inj h
    exact respond_onlyAdds _ _ s

theorem exec_onlyAdds {i : Instr} (hi : i = .sum ∨ i = .size ∨ i = .blocksize) (e : Engine) (ready : Bool) :
    ∃ (rs : List Response) (out : List Byte), (i = .size ∨ i = .blocksize → out = []) ∧
      ∀ s t : State, s.eng = e → s.outReady = ready → exec i s = .next t → OnlyAdds s t rs out := by
  obtain rfl | rfl | rfl := hi
  · obtain ⟨rs, out, hadds⟩ := execSum_onlyAdds e ready
    exact ⟨rs, out, by simp, hadds⟩
  · obtain ⟨rs, hadds⟩ := execSize_onlyAdds e
    exact ⟨rs, [], fun _ => rfl, fun s t heng _ h => hadds s t heng h⟩
  · refine ⟨[⟨.ok, 64⟩], [], fun _ => rfl, fun s t _ _ h => ?_⟩
    obtain rfl := execBlocksize_next h
    exact respond_onlyAdds _ _ s

/-- Settles O33: the three commands only add to the histories. -/
theorem readOnlyCommandsFrame : Obligations.ReadOnlyCommandsFrame := by
  intro i s t hi h
  obtain ⟨rs, out, hout, hadds⟩ := exec_onlyAdds hi s.eng s.outReady
  have ht := hadds s t rfl rfl h
  exact ⟨ht.eng, ht.dataIn, ht.outReady, ht.freeNext, fun hi' => by rw [ht.dataOut, hout hi', List.append_nil]⟩

/-! ### Repeated commands -/

theorem Engine.Agrees.refl (e : Engine) : e.Agrees e :=
  ⟨rfl, fun _ => ⟨rfl, rfl, rfl, rfl, rfl, rfl, fun _ _ _ => rfl⟩⟩

/-- Restarting a restarted session only replaces the buffer, of which no byte is specified (R37). -/
theorem restartSession_agrees_of_restarted {s t : State} (h : t.eng = (restartSession s).eng) :
    (restartSession t).eng.Agrees t.eng := by
  rw [restartSession_eng t, h, restartSession_eng s]
  exact ⟨rfl, fun _ => ⟨rfl, rfl, rfl, rfl, rfl, rfl, nofun⟩⟩

theorem execReset_twice_agrees {s t u : State} (hst : execReset s = .next t) (htu : execReset t = .next u) :
    u.eng.Agrees t.eng := by
  obtain ⟨-, rfl⟩ | ⟨htcfg, rfl⟩ := execReset_next htu
  · exact .refl t.eng
  · obtain ⟨hscfg, rfl⟩ | ⟨-, rfl⟩ := execReset_next hst
    · simp [hscfg] at htcfg
    · rw [respond_eng]
      exact restartSession_agrees_of_restarted (respond_eng .ok 0 (restartSession s))

/-- Settles O48: the first run of SUM, SIZE or BLOCKSIZE leaves the engine and the pin, which alone determine what the
second adds. -/
theorem idempotentCommands : Obligations.IdempotentCommands := by
  refine ⟨fun i s t u hi hst htu => ?_, fun s t u hst htu => execReset_twice_agrees hst htu⟩
  obtain ⟨rs, out, -, hadds⟩ := exec_onlyAdds hi s.eng s.outReady
  have ht := hadds s t rfl rfl hst
  have hu := hadds t u ht.eng ht.outReady htu
  exact ⟨rs, out, ht.resps, hu.resps, ht.dataOut, hu.dataOut⟩

end Sys2Proof.Machine
end

section
/-! PROOFS. In an engine with the invariant every command has a next state, so the commands of a well-framed host all
complete, in any interleaving of several hosts (20_memory.md R59; 70_reset_and_hazards.md R258). -/

namespace Sys2Proof.Machine

/-! ### Every command has a next state under the invariant -/

theorem withData_isNext {len : Nat} {s : State} {go : List Byte → State → Result}
    (hgo : ∃ t, go (s.dataIn.take len) (consume len s) = .next t) : ∃ t, withData len s go = .next t := by
  by_cases hlt : s.dataIn.length < len
  · exact ⟨s, withData_of_lt hlt⟩
  · rwa [withData_of_le (by omega)]

theorem whenConfigured_isNext {s : State} {go : Result} (hgo : s.eng.cfg = true → ∃ t, go = .next t) :
    ∃ t, whenConfigured s go = .next t := by
  cases hcfg : s.eng.cfg
  case false => exact ⟨_, whenConfigured_false hcfg⟩
  case true => rw [whenConfigured_true hcfg]; exact hgo hcfg

theorem whenOutReady_isNext {s : State} {go : Result} (hgo : ∃ t, go = .next t) :
    ∃ t, whenOutReady s go = .next t := by
  cases hready : s.outReady
  case false => exact ⟨s, whenOutReady_false hready⟩
  case true => rwa [whenOutReady_true hready]

/-- A configured engine with the invariant has room in its buffer (R26). -/
theorem whenBufferOpen_of_inv {s : State} {go : Result} (hs : s.Inv) (hcfg : s.eng.cfg = true) :
    whenBufferOpen s go = go := by
  obtain ⟨hroom, -⟩ := hs hcfg
  exact whenBufferOpen_of_le hroom

theorem exec_isNext_of_inv {s : State} (hs : s.Inv) (i : Instr) : ∃ t, exec i s = .next t := by
  cases i with
  | new w => exact ⟨_, rfl⟩
  | news w len =>
    simp only [exec, execNews]
    refine withData_isNext ?_
    split <;> exact ⟨_, rfl⟩
  | write len =>
    simp only [exec, execWrite]
    exact withData_isNext <| whenConfigured_isNext fun hcfg => ⟨_, whenBufferOpen_of_inv hs hcfg⟩
  | sum =>
    exact whenConfigured_isNext fun hcfg => whenOutReady_isNext ⟨_, whenBufferOpen_of_inv hs hcfg⟩
  | reset => exact whenConfigured_isNext fun _ => ⟨_, rfl⟩
  | blocksize => exact ⟨_, rfl⟩
  | size => exact whenConfigured_isNext fun _ => ⟨_, rfl⟩

theorem step_isNext_of_inv {s : State} {word : Word} {rest : List Word} (hs : s.Inv) (hcmd : s.cmdIn = word :: rest) :
    ∃ t, step s = .next t := by
  unfold step
  rw [hcmd]
  dsimp only
  split
  · exact exec_isNext_of_inv hs _
  · exact ⟨_, rfl⟩

/-! ### Well-framed commands complete -/

theorem framed_cons {s : State} {word : Word} {rest : List Word} (hcmd : s.cmdIn = word :: rest) :
    s.Framed ↔ s.dataIn.length = announced word + (rest.map announced).sum := by
  rw [State.Framed, hcmd, List.map_cons, List.sum_cons]

/-- One step of a well-framed host whose output is accepted ends the command on the port, and what the step needs holds
again. -/
theorem framed_step_responds {s : State} {word : Word} {rest : List Word} (hs : s.Inv) (hframed : s.Framed)
    (hready : s.outReady = true) (hcmd : s.cmdIn = word :: rest) :
    ∃ t : State, step s = .next t ∧ t.cmdIn = rest ∧ t.Inv ∧ t.Framed ∧ t.outReady = true ∧
      t.resps.length = s.resps.length + 1 := by
  obtain ⟨t, hstep⟩ := step_isNext_of_inv hs hcmd
  have hbytes := (framed_cons hcmd).mp hframed
  obtain ⟨-, hempty | hbusy | ⟨word', rest', hcmd', hlt⟩⟩ | ⟨word', rest', _, _, _, hcmd', -, hresp⟩ :=
    step_holds_or_responds hstep
  · simp [hempty] at hcmd
  · simp [hready] at hbusy
  · obtain ⟨rfl, rfl⟩ := List.cons.inj (hcmd.symm.trans hcmd')
    omega
  · obtain ⟨rfl, rfl⟩ := List.cons.inj (hcmd.symm.trans hcmd')
    obtain ⟨htcmd, htin, -, htresps, htready⟩ := hresp
    have htcmd' : t.cmdIn = rest := by rw [htcmd, hcmd, List.tail_cons]
    have htframed : t.Framed := by
      rw [State.Framed, htin, htcmd', List.length_drop, hbytes, Nat.add_sub_cancel_left]
    exact ⟨t, hstep, htcmd', engineInvariantKept s t hs hstep, htframed, htready.trans hready, by simp [htresps]⟩

/-- By induction on the command words: each step takes one. -/
theorem framed_run_completes {s : State} (hs : s.Inv) (hframed : s.Framed) (hready : s.outReady = true) :
    ∃ t : State, Host.Core.run Sys2Proof.core s.cmdIn.length s = .next t ∧ t.cmdIn = [] ∧ t.dataIn = [] ∧
      t.resps.length = s.resps.length + s.cmdIn.length ∧ t.Inv := by
  generalize hwords : s.cmdIn = words
  induction words generalizing s with
  | nil =>
    have hempty : s.dataIn = [] := List.eq_nil_of_length_eq_zero (by rw [hframed, hwords]; rfl)
    exact ⟨s, rfl, hwords, hempty, rfl, hs⟩
  | cons word rest ih =>
    obtain ⟨t, hstep, htcmd, ht, htframed, htready, htresps⟩ := framed_step_responds hs hframed hready hwords
    obtain ⟨u, hrun, hucmd, huin, huresps, hu⟩ := ih ht htframed htready htcmd
    refine ⟨u, ?_, hucmd, huin, ?_, hu⟩
    · rw [List.length_cons, run_succ hstep, hrun]
    · rw [huresps, htresps, List.length_cons]
      omega

/-! ### Presenting whole commands -/

@[simp] theorem presentAll_nil (s : State) : presentAll [] s = s := rfl

@[simp] theorem presentAll_cons (f : Frame) (fs : List Frame) (s : State) :
    presentAll (f :: fs) s = presentAll fs (present f.word f.bytes s) := rfl

@[simp] theorem presentAll_eng (fs : List Frame) (s : State) : (presentAll fs s).eng = s.eng := by
  induction fs generalizing s with
  | nil => rfl
  | cons f fs ih => rw [presentAll_cons, ih, present_eng]

@[simp] theorem presentAll_cmdIn (fs : List Frame) (s : State) :
    (presentAll fs s).cmdIn = s.cmdIn ++ fs.map Frame.word := by
  induction fs generalizing s with
  | nil => exact (List.append_nil _).symm
  | cons f fs ih => rw [presentAll_cons, ih, present_cmdIn, List.append_assoc]; rfl

@[simp] theorem presentAll_resps (fs : List Frame) (s : State) : (presentAll fs s).resps = s.resps := by
  induction fs generalizing s with
  | nil => rfl
  | cons f fs ih => rw [presentAll_cons, ih, present_resps]

@[simp] theorem presentAll_outReady (fs : List Frame) (s : State) : (presentAll fs s).outReady = s.outReady := by
  induction fs generalizing s with
  | nil => rfl
  | cons f fs ih => rw [presentAll_cons, ih, present_outReady]

/-- A command presented with all the bytes it announces keeps the framing (R70). -/
theorem present_framed {s : State} (hs : s.Framed) {word : Word} {bytes : List Byte}
    (hbytes : bytes.length = announced word) : (present word bytes s).Framed := by
  rw [State.Framed] at hs
  simp [State.Framed, hs, hbytes]

theorem presentAll_framed {s : State} (hs : s.Framed) {fs : List Frame}
    (hfs : ∀ f ∈ fs, f.bytes.length = announced f.word) : (presentAll fs s).Framed := by
  induction fs generalizing s with
  | nil => exact hs
  | cons f fs ih =>
    obtain ⟨hf, hrest⟩ := List.forall_mem_cons.mp hfs
    exact ih (present_framed hs hf) hrest

/-! ### Interleavings -/

/-- Taking the first command of one host takes it from the commands of all. -/
theorem flatten_perm_cons_flatten_set {α : Type} {hosts : List (List α)} {k : Nat} {c : α} {rest : List α}
    (h : hosts[k]? = some (c :: rest)) : hosts.flatten.Perm (c :: (hosts.set k rest).flatten) := by
  obtain ⟨hk, hget⟩ := List.getElem?_eq_some_iff.mp h
  have hbefore : ((c :: rest) :: hosts.eraseIdx k).Perm hosts := hget ▸ List.getElem_cons_eraseIdx_perm hk
  have hafter : (rest :: hosts.eraseIdx k).Perm (hosts.set k rest) := by
    have hperm := List.getElem_cons_eraseIdx_perm (l := hosts.set k rest) (n := k) (by rwa [List.length_set])
    rwa [List.getElem_set_self, List.eraseIdx_set_eq] at hperm
  exact hbefore.flatten.symm.trans (hafter.flatten.cons c)

/-- An interleaving is a rearrangement of the hosts' commands. -/
theorem Interleaves.perm {α : Type} {hosts : List (List α)} {order : List α} (h : Interleaves hosts order) :
    order.Perm hosts.flatten := by
  induction h with
  | done hempty => rw [List.flatten_eq_nil_iff.mpr hempty]
  | take k c rest hget _ ih => exact (ih.cons c).trans (flatten_perm_cons_flatten_set hget).symm

theorem Interleaves.length_eq {α : Type} {hosts : List (List α)} {order : List α} (h : Interleaves hosts order) :
    order.length = (hosts.map List.length).sum := by
  rw [h.perm.length_eq, List.length_flatten]

/-- Settles O60: an interleaving of well-framed commands is a well-framed sequence of as many commands. -/
theorem everyInterleavingCompletes : Obligations.EveryInterleavingCompletes := by
  intro hosts order s hint hhosts hs hcmd hin hready
  have horder : ∀ f ∈ order, f.bytes.length = announced f.word := fun f hf =>
    List.forall_mem_flatten.mpr hhosts f (hint.perm.mem_iff.mp hf)
  have hframed : (presentAll order s).Framed := presentAll_framed (by simp [State.Framed, hcmd, hin]) horder
  have hinv : (presentAll order s).Inv := by rwa [State.Inv, presentAll_eng]
  have hwords : (presentAll order s).cmdIn.length = order.length := by simp [hcmd]
  obtain ⟨t, hrun, htcmd, htin, htresps, ht⟩ :=
    framed_run_completes hinv hframed ((presentAll_outReady order s).trans hready)
  rw [hwords] at hrun htresps
  exact ⟨t, hrun, htcmd, htin, ht, by rw [htresps, presentAll_resps, hint.length_eq]⟩

end Sys2Proof.Machine
end

section
/-! PROOFS. An event replaces the engine it names and no other, so events of different engines commute (20_memory.md
R58; 60_exceptions.md R234). -/

namespace Sys2Proof.Machine

@[simp] theorem Platform.put_engines (p : Platform) (k : Nat) (s : State) :
    (p.put k s).engines = p.engines.set k s := rfl

theorem Platform.put_comm (p : Platform) {j k : Nat} (s t : State) (h : j ≠ k) :
    (p.put j s).put k t = (p.put k t).put j s := congrArg Platform.mk (List.set_comm s t h)

/-- A platform's step answers a next platform exactly when the engine named exists and answers a next state. -/
theorem Platform.step_eq_next_iff {p p' : Platform} {ev : PlatformEvent} :
    p.step ev = .next p' ↔
      ∃ s t : State, p.engines[ev.engine]? = some s ∧ ev.onEngine s = .next t ∧ p' = p.put ev.engine t := by
  unfold Platform.step
  split
  next s hget =>
    unfold Platform.lift
    constructor
    · intro h
      split at h
      · exact ⟨s, _, hget, ‹_›, (Host.Outcome.next.inj h).symm⟩
      · cases h
      · cases h
    · rintro ⟨s', t, hget', hstep, rfl⟩
      obtain rfl := Option.some.inj (hget.symm.trans hget')
      rw [hstep]
  next hget => simp [hget]

/-- Settles O58: an event replaces one element of the list of engines. -/
theorem enginesShareNoState : Obligations.EnginesShareNoState := by
  refine ⟨fun p p' ev h => ?_, ?_, fun s hs => ?_⟩
  · obtain ⟨s, t, -, -, rfl⟩ := Platform.step_eq_next_iff.mp h
    rw [Platform.put_engines]
    exact ⟨List.length_set, fun j hj => List.getElem?_set_ne hj.symm⟩
  · simp [Platform.reset, Config.engineCount]
  · obtain rfl := List.eq_of_mem_replicate hs
    rfl

/-- Settles O59: each event finds its engine as it was, whichever comes first, and the two replacements commute. -/
theorem enginesAreUnordered : Obligations.EnginesAreUnordered := by
  intro p p1 p12 ev1 ev2 hne h1 h12
  obtain ⟨s1, t1, hget1, hon1, rfl⟩ := Platform.step_eq_next_iff.mp h1
  obtain ⟨s2, t2, hget2, hon2, rfl⟩ := Platform.step_eq_next_iff.mp h12
  rw [Platform.put_engines, List.getElem?_set_ne hne] at hget2
  refine ⟨p.put ev2.engine t2, Platform.step_eq_next_iff.mpr ⟨s2, t2, hget2, hon2, rfl⟩,
    Platform.step_eq_next_iff.mpr ⟨s1, t1, ?_, hon1, p.put_comm t1 t2 hne⟩⟩
  rw [Platform.put_engines, List.getElem?_set_ne hne.symm]
  exact hget1

end Sys2Proof.Machine
end

section
/-! PROOFS. The decoder and the encoder: one walk through the decode procedure says what every word decodes to, and the
rows of the opcode map, the illegal words and the host's frames follow from it (30_encoding.md R70 to R83). -/

namespace Sys2Proof.Machine

/-! ### Decoding and encoding -/

theorem lenFits_iff (len : Nat) : lenFits len = true ↔ len < 2 ^ 24 := decide_eq_true_iff

/-- Bits 31:4 are W224, SP, RSV and LEN: if they are 0, OPC is the whole word. -/
theorem packWord_of_fieldHigh_eq_zero {word : Word} (h : fieldHigh word = 0) :
    packWord (fieldOpc word) false false 0 = word := by
  have hbit : ∀ k, k < 28 → word.getLsbD (4 + k) = false := by
    intro k hk
    simpa [fieldHigh, hk] using congrArg (·.getLsbD k) h
  have hrsv : fieldRsv word = 0 := by
    ext k hk
    simpa [fieldRsv, ← Nat.add_assoc] using hbit (2 + k) (by omega)
  have hlen : fieldLen word = 0 := by
    apply Nat.eq_of_testBit_eq
    intro k
    by_cases hk : k < 24
    · simpa [testBit_fieldLen, hk, ← Nat.add_assoc] using hbit (4 + k) (by omega)
    · simp [testBit_fieldLen, hk]
  have hw : fieldW224 word = false := hbit 0 (by decide)
  have hsp : fieldSp word = false := hbit 1 (by decide)
  simpa [hw, hsp, hlen] using packWord_fields word hrsv

/-- LEN keeps a byte count that fits; 2^24 is written out, as `simp` leaves it. -/
theorem mod_eq_of_lenFits {len : Nat} (h : lenFits len = true) : len % 16777216 = len :=
  Nat.mod_eq_of_lt ((lenFits_iff len).mp h)

theorem encode_new_of_fields {word : Word} (hrsv : fieldRsv word = 0) (hopc : fieldOpc word = 0)
    (hsp : fieldSp word = false) (hlen : fieldLen word = 0) : encode (.new (widthOfBit (fieldW224 word))) = word := by
  have hword := packWord_fields word hrsv
  rwa [hopc, hsp, hlen, ← bitOfWidth_widthOfBit (fieldW224 word)] at hword

theorem encode_news_of_fields {word : Word} (hrsv : fieldRsv word = 0) (hopc : fieldOpc word = 0)
    (hsp : fieldSp word = true) :
    encode (.news (widthOfBit (fieldW224 word)) (fieldLen word)) = word ∧ lenFits (fieldLen word) = true := by
  have hword := packWord_fields word hrsv
  rw [hopc, hsp, ← bitOfWidth_widthOfBit (fieldW224 word)] at hword
  exact ⟨hword, (lenFits_iff _).mpr (fieldLen_lt word)⟩

theorem encode_write_of_fields {word : Word} (hrsv : fieldRsv word = 0) (hopc : fieldOpc word = 1)
    (hw : fieldW224 word = false) (hsp : fieldSp word = false) :
    encode (.write (fieldLen word)) = word ∧ lenFits (fieldLen word) = true := by
  have hword := packWord_fields word hrsv
  rw [hopc, hw, hsp] at hword
  exact ⟨hword, (lenFits_iff _).mpr (fieldLen_lt word)⟩

/-- What an answer of the decoder says of the word it read: the word of a well-formed command, or an illegal one. -/
def AnswersFor (word : Word) : Except IllegalWord Instr → Prop
  | .ok i => encode i = word ∧ i.wellFormed = true
  | .error _ => wordIllegal word

/-- A command without operands is read from its own word only; of the words with its OPC no other is legal. -/
theorem decodeBare_answersFor {word : Word} {opc : BitVec 4} {i : Instr} (hword : fieldOpc word = opc)
    (hi : encode i = packWord opc false false 0) (hwf : i.wellFormed = true := by rfl)
    (hlo : 2 ≤ opc.toNat := by decide) (hhi : opc.toNat ≤ 5 := by decide) :
    AnswersFor word (decodeBare word i) := by
  subst hword
  unfold decodeBare
  split
  case isTrue hhigh => exact ⟨hi.trans (packWord_of_fieldHigh_eq_zero hhigh), hwf⟩
  case isFalse hhigh => exact .inr (.inr (.inr (.inr ⟨hlo, hhi, hhigh⟩)))

/-- The decode procedure, branch by branch (R78, R79). -/
theorem decode_answersFor (word : Word) : AnswersFor word (decode word) := by
  fun_cases decode word with
  | case1 hrsv => exact .inr (.inl hrsv)
  | case2 hrsv hopc hsp => exact encode_news_of_fields (not_not.mp hrsv) hopc hsp
  | case3 hrsv hopc hsp hlen =>
    exact ⟨encode_new_of_fields (not_not.mp hrsv) hopc (Bool.eq_false_of_not_eq_true hsp) hlen, rfl⟩
  | case4 _ hopc hsp hlen => exact .inr (.inr (.inl ⟨hopc, Bool.eq_false_of_not_eq_true hsp, hlen⟩))
  | case5 _ _ hopc hbits => exact .inr (.inr (.inr (.inl ⟨hopc, by simpa using hbits⟩)))
  | case6 hrsv _ hopc hbits =>
    obtain ⟨hw, hsp⟩ : fieldW224 word = false ∧ fieldSp word = false := by simpa using hbits
    exact encode_write_of_fields (not_not.mp hrsv) hopc hw hsp
  | case7 _ _ _ hopc => exact decodeBare_answersFor hopc rfl
  | case8 _ _ _ _ hopc => exact decodeBare_answersFor hopc rfl
  | case9 _ _ _ _ _ hopc => exact decodeBare_answersFor hopc rfl
  | case10 _ _ _ _ _ _ hopc => exact decodeBare_answersFor hopc rfl
  | case11 _ h0 h1 h2 h3 h4 h5 => exact .inl (by bv_omega)

theorem encode_of_decode {word : Word} {i : Instr} (h : decode word = .ok i) :
    encode i = word ∧ i.wellFormed = true := by
  have hword := decode_answersFor word
  rwa [h] at hword

theorem wordIllegal_of_decode {word : Word} {e : IllegalWord} (h : decode word = .error e) : wordIllegal word := by
  have hword := decode_answersFor word
  rwa [h] at hword

/-- The packed fields of a command take the decoder to the command's own branch. -/
theorem decode_encode {i : Instr} (hi : i.wellFormed = true) : decode (encode i) = .ok i := by
  cases i with
  | new w => simp [decode, encode, Instr.opcode]
  | news w len => simp [decode, encode, Instr.opcode, mod_eq_of_lenFits hi]
  | write len => simp [decode, encode, Instr.opcode, mod_eq_of_lenFits hi]
  | sum | reset | blocksize | size => decide

/-- Settles O2: each command takes the decoder to its own branch. -/
theorem decodeAfterEncode : Obligations.DecodeAfterEncode := fun _ => decode_encode

/-- Settles O3, from what every answer of the decoder says of its word. -/
theorem encodeAfterDecode : Obligations.EncodeAfterDecode := fun _ _ => encode_of_decode

theorem decode_eq_ok_iff {word : Word} {i : Instr} :
    decode word = .ok i ↔ encode i = word ∧ i.wellFormed = true :=
  ⟨encode_of_decode, fun ⟨hword, hi⟩ => hword ▸ decode_encode hi⟩

/-- Settles O1: the decoder is run on the words. -/
theorem sampleWordsDecode : Obligations.SampleWordsDecode := by
  unfold Obligations.SampleWordsDecode
  decide

/-! ### The rows of the opcode map -/

/-- A field the mask keeps whole is that of the masked word. -/
theorem extractLsb'_of_and_eq {n start len : Nat} {word mask m : BitVec n} (h : word &&& mask = m)
    (hmask : mask.extractLsb' start len = BitVec.allOnes len) :
    word.extractLsb' start len = m.extractLsb' start len := by
  rw [← h, BitVec.extractLsb'_and, hmask, BitVec.and_allOnes]

theorem getLsbD_of_and_eq {n i : Nat} {word mask m : BitVec n} (h : word &&& mask = m)
    (hmask : mask.getLsbD i = true) : word.getLsbD i = m.getLsbD i := by
  rw [← h, BitVec.getLsbD_and, hmask, Bool.and_true]

theorem decode_eq_new_iff (word : Word) (w : Width) : decode word = .ok (.new w) ↔
    word &&& 0xFFFFFFEF = 0x00000000 ∧ w = widthOfBit (fieldW224 word) := by
  rw [decode_eq_ok_iff]
  constructor
  · rintro ⟨rfl, -⟩
    obtain ⟨hrow, -⟩ := Laws.EncodedRow.new w
    exact ⟨hrow, by simp [encode]⟩
  · rintro ⟨hrow, rfl⟩
    have hopc : fieldOpc word = 0 := extractLsb'_of_and_eq hrow (by decide)
    have hrsv : fieldRsv word = 0 := extractLsb'_of_and_eq hrow (by decide)
    have hsp : fieldSp word = false := getLsbD_of_and_eq hrow (by decide)
    have hlen : fieldLen word = 0 := congrArg BitVec.toNat (extractLsb'_of_and_eq hrow (by decide))
    exact ⟨encode_new_of_fields hrsv hopc hsp hlen, rfl⟩

theorem decode_eq_news_iff (word : Word) (w : Width) (len : Nat) : decode word = .ok (.news w len) ↔
    word &&& 0x000000EF = 0x00000020 ∧ w = widthOfBit (fieldW224 word) ∧ len = word.toNat / 256 := by
  rw [decode_eq_ok_iff, ← fieldLen_eq]
  constructor
  · rintro ⟨rfl, hlen⟩
    obtain ⟨hrow, -⟩ := Laws.EncodedRow.news w len
    exact ⟨hrow, by simp [encode], by simp [encode, mod_eq_of_lenFits hlen]⟩
  · rintro ⟨hrow, rfl, rfl⟩
    have hopc : fieldOpc word = 0 := extractLsb'_of_and_eq hrow (by decide)
    have hrsv : fieldRsv word = 0 := extractLsb'_of_and_eq hrow (by decide)
    have hsp : fieldSp word = true := getLsbD_of_and_eq hrow (by decide)
    exact encode_news_of_fields hrsv hopc hsp

theorem decode_eq_write_iff (word : Word) (len : Nat) : decode word = .ok (.write len) ↔
    word &&& 0x000000FF = 0x00000001 ∧ len = word.toNat / 256 := by
  rw [decode_eq_ok_iff, ← fieldLen_eq]
  constructor
  · rintro ⟨rfl, hlen⟩
    obtain ⟨hrow, -⟩ := Laws.EncodedRow.write len
    exact ⟨hrow, by simp [encode, mod_eq_of_lenFits hlen]⟩
  · rintro ⟨hrow, rfl⟩
    have hopc : fieldOpc word = 1 := extractLsb'_of_and_eq hrow (by decide)
    have hrsv : fieldRsv word = 0 := extractLsb'_of_and_eq hrow (by decide)
    have hw : fieldW224 word = false := getLsbD_of_and_eq hrow (by decide)
    have hsp : fieldSp word = false := getLsbD_of_and_eq hrow (by decide)
    exact encode_write_of_fields hrsv hopc hw hsp

/-- The mask of a command without operands keeps the whole word. -/
theorem decode_eq_bare_iff {i : Instr} {m : Word} (hi : encode i = m) (hwf : i.wellFormed = true) (word : Word) :
    decode word = .ok i ↔ word &&& 0xFFFFFFFF = m := by
  have hmask : (0xFFFFFFFF : Word) = BitVec.allOnes 32 := rfl
  rw [decode_eq_ok_iff, hmask, BitVec.and_allOnes, hi, eq_comm, and_iff_left hwf]

/-- Settles O4, row by row. -/
theorem opcodeMapRows : Obligations.OpcodeMapRows :=
  ⟨decode_eq_new_iff, decode_eq_news_iff, decode_eq_write_iff,
    decode_eq_bare_iff (by decide) rfl, decode_eq_bare_iff (by decide) rfl,
    decode_eq_bare_iff (by decide) rfl, decode_eq_bare_iff (by decide) rfl⟩

/-! ### Illegal words -/

theorem not_wordIllegal_encode (i : Instr) : ¬ wordIllegal (encode i) := by
  cases i with
  | new w => simp [wordIllegal, encode, Instr.opcode]
  | news w len => simp [wordIllegal, encode, Instr.opcode]
  | write len => simp [wordIllegal, encode, Instr.opcode]
  | sum | reset | blocksize | size => simp [wordIllegal, encode, Instr.opcode, fieldHigh_packWord_zero]

theorem decode_error_iff (word : Word) : (∃ e, decode word = .error e) ↔ wordIllegal word := by
  refine ⟨fun ⟨e, h⟩ => wordIllegal_of_decode h, fun hbad => ?_⟩
  cases h : decode word with
  | error e => exact ⟨e, rfl⟩
  | ok i =>
    obtain ⟨rfl, -⟩ := encode_of_decode h
    exact absurd hbad (not_wordIllegal_encode i)

theorem step_of_decode_error {s : State} {word : Word} {rest : List Word} {e : IllegalWord}
    (hcmd : s.cmdIn = word :: rest) (h : decode word = .error e) : step s = .next (raise .illegalCommand s) := by
  simp only [step, hcmd, h, illegalWord]

/-- Settles O5: an illegal word is one the decoder reads no command from, and the step then raises the fault. -/
theorem illegalWordFaults : Obligations.IllegalWordFaults := by
  refine ⟨decode_error_iff, fun word rest s hcmd hbad => ?_⟩
  obtain ⟨e, h⟩ := (decode_error_iff word).mpr hbad
  rw [step_of_decode_error hcmd h, raise, respond, hcmd, List.tail_cons]

end Sys2Proof.Machine
end

section
/-! PROOFS. The host's frames: the consecutive WRITEs of a byte string, and reading a one-frame command back
(30_encoding.md R70, R80, R83). -/

namespace Sys2Proof.Machine

/-! ### Consecutive WRITEs -/

theorem writeChunks_bytes (size fuel : Nat) (data : List Byte) :
    ((writeChunks size fuel data).map Frame.bytes).flatten = data := by
  induction fuel generalizing data with
  | zero => simp [writeChunks, writeFrame]
  | succ fuel ih =>
    rw [writeChunks]
    split
    · simp [writeFrame]
    · simp [writeFrame, ih]

/-- Each WRITE but the last takes at least one byte off, so enough fuel leaves no chunk too long. -/
theorem mem_writeChunks {size fuel : Nat} (hsize : 0 < size) {data : List Byte} (hfuel : data.length ≤ fuel) {f : Frame}
    (hf : f ∈ writeChunks size fuel data) : f = writeFrame f.bytes ∧ f.bytes.length ≤ size := by
  induction fuel generalizing data with
  | zero =>
    rw [writeChunks, List.mem_singleton] at hf
    subst hf
    exact ⟨rfl, hfuel.trans (Nat.zero_le size)⟩
  | succ fuel ih =>
    rw [writeChunks] at hf
    split at hf
    case isTrue hle =>
      rw [List.mem_singleton] at hf
      subst hf
      exact ⟨rfl, hle⟩
    case isFalse =>
      obtain rfl | hrest := List.mem_cons.mp hf
      · exact ⟨rfl, List.length_take_le size data⟩
      · exact ih (by rw [List.length_drop]; omega) hrest

theorem decode_writeFrame {data : List Byte} (h : data.length ≤ maxLen) :
    decode (writeFrame data).word = .ok (.write data.length) :=
  decode_encode ((lenFits_iff _).mpr (Nat.lt_of_le_pred (by decide) h))

theorem decode_of_mem_writeChunks {data : List Byte} {f : Frame} (hf : f ∈ writeChunks maxLen data.length data) :
    decode f.word = .ok (.write f.bytes.length) ∧ f.bytes.length ≤ maxLen := by
  obtain ⟨hframe, hle⟩ := mem_writeChunks (by decide) (Nat.le_refl _) hf
  rw [hframe]
  exact ⟨decode_writeFrame hle, hle⟩

/-- Settles O7, from the frames together and each frame by itself. -/
theorem longWriteSplits : Obligations.LongWriteSplits := fun data =>
  ⟨_, rfl, writeChunks_bytes maxLen data.length data, fun _ hf => decode_of_mem_writeChunks hf⟩

/-! ### Reading a one-frame command back -/

/-- A command without data bytes reads back by evaluation, NEWS and WRITE by the decoder's answer on their word. -/
theorem ofFrame_of_frames {c : Cmd} {f : Frame} (hf : c.frames = some [f])
    (hbad : ∀ word : Word, c = .illegal word → ∃ e, decode word = .error e) :
    Cmd.ofFrame f = c ∧ f.bytes.length = announced f.word := by
  cases c with
  | new w =>
    obtain rfl := List.singleton_inj.mp (Option.some.inj hf)
    cases w <;> decide
  | news w salt =>
    obtain ⟨hfits, hf⟩ := Option.ite_none_right_eq_some.mp hf
    obtain rfl := List.singleton_inj.mp (Option.some.inj hf)
    have hdec : decode (encode (.news w salt.length)) = .ok (.news w salt.length) := decode_encode hfits
    exact ⟨by simp only [Cmd.ofFrame, hdec], (announced_of_ok hdec).symm⟩
  | write data =>
    have hf := Option.some.inj hf
    have hbytes := writeChunks_bytes maxLen data.length data
    obtain ⟨hdec, -⟩ := decode_of_mem_writeChunks (f := f) (by rw [hf]; exact List.mem_singleton_self f)
    rw [hf] at hbytes
    obtain rfl : f.bytes = data := by simpa using hbytes
    exact ⟨by simp only [Cmd.ofFrame, hdec], (announced_of_ok hdec).symm⟩
  | sum | reset | blocksize | size =>
    obtain rfl := List.singleton_inj.mp (Option.some.inj hf)
    decide
  | illegal word =>
    obtain rfl := List.singleton_inj.mp (Option.some.inj hf)
    obtain ⟨e, hdec⟩ := hbad word rfl
    exact ⟨by simp only [Cmd.ofFrame, hdec], (announced_of_error hdec).symm⟩

/-- Settles O6, by the cases of the abstract command. -/
theorem abstractCommandReadsBack : Obligations.AbstractCommandReadsBack := fun _ _ => ofFrame_of_frames

end Sys2Proof.Machine
end

section
/-! PROOFS. What a step does on the ports: the framing it keeps and the value it answers (30_encoding.md R70, R77;
70_reset_and_hazards.md R254). -/

namespace Sys2Proof.Machine

/-! ### The framing of the ports -/

/-- A response takes the word off the port and exactly the bytes that word announces. -/
theorem framed_of_responded {s t : State} {word : Word} {rest : List Word} {st : Status} {value : Word}
    {out : List Byte} (hs : s.Framed) (hcmd : s.cmdIn = word :: rest)
    (h : Responded s t st value (announced word) out) : t.Framed := by
  obtain ⟨htcmd, htin, -⟩ := h
  have hbytes := (framed_cons hcmd).mp hs
  rw [State.Framed, htin, htcmd, hcmd, List.tail_cons, List.length_drop, hbytes, Nat.add_sub_cancel_left]

/-- Settles O43, by the two ways a step can end. -/
theorem framingKept : Obligations.FramingKept := by
  intro s t hs hstep
  obtain ⟨rfl, -⟩ | ⟨word, rest, st, value, out, hcmd, -, hresp⟩ := step_holds_or_responds hstep
  · exact hs
  · exact framed_of_responded hs hcmd hresp

/-! ### The response value -/

/-- The value a command of a width-`w` engine answers with status OK (R77). -/
def okValue (w : Width) : Instr → Word
  | .new _ => 0
  | .news _ _ => 0
  | .write _ => 0
  | .sum => 0
  | .reset => 0
  | .blocksize => 64
  | .size => BitVec.ofNat 32 (digestBytes w)

/-- How `exec i s = .next t` answers (R76, R77). -/
inductive CommandAnswer (i : Instr) (s t : State) : Prop
  /-- The command waits for data-in bytes or for the host to accept output (U7). -/
  | waited (hst : t = s)
  /-- A faulted command answers the value 0. -/
  | faulted (st : Status) (hresp : t.resps = s.resps ++ [⟨st, 0⟩]) (hfault : st ≠ .ok)
  /-- A command that ends with OK answers its value; SUM emits the digest. -/
  | completed (hresp : t.resps = s.resps ++ [⟨.ok, okValue s.eng.w i⟩])
      (hdigest : i = .sum → t.dataOut = s.dataOut ++ s.eng.digest)

theorem exec_commandAnswer {i : Instr} {s t : State} (h : exec i s = .next t) : CommandAnswer i s t := by
  cases i with
  | new w =>
    obtain rfl := execNew_next h
    exact .completed rfl nofun
  | news w len =>
    obtain ⟨-, hst⟩ | ⟨-, -, rfl⟩ | ⟨-, -, rfl⟩ := execNews_next h
    · exact .waited hst
    · exact .faulted _ rfl nofun
    · exact .completed rfl nofun
  | write len =>
    obtain ⟨-, hst⟩ | ⟨-, -, rfl⟩ | ⟨-, -, -, rfl⟩ := execWrite_next h
    · exact .waited hst
    · exact .faulted _ rfl nofun
    · exact .completed rfl nofun
  | sum =>
    obtain ⟨-, rfl⟩ | ⟨-, -, hst⟩ | ⟨-, -, -, rfl⟩ := execSum_next h
    · exact .faulted _ rfl nofun
    · exact .waited hst
    · exact .completed rfl fun _ => rfl
  | reset =>
    obtain ⟨-, rfl⟩ | ⟨-, rfl⟩ := execReset_next h
    · exact .faulted _ rfl nofun
    · exact .completed rfl nofun
  | blocksize =>
    obtain rfl := execBlocksize_next h
    exact .completed rfl nofun
  | size =>
    obtain ⟨-, rfl⟩ | ⟨-, rfl⟩ := execSize_next h
    · exact .faulted _ rfl nofun
    · exact .completed rfl nofun

/-- The answer in terms of the response that was added: one that waits adds none. -/
theorem CommandAnswer.value {i : Instr} {s t : State} {r : Response} (h : CommandAnswer i s t)
    (hr : t.resps = s.resps ++ [r]) :
    (r.status ≠ .ok ∧ r.value = 0) ∨
      (r.status = .ok ∧ r.value = okValue s.eng.w i ∧ (i = .sum → t.dataOut = s.dataOut ++ s.eng.digest)) := by
  cases h with
  | waited hst => simp [hst] at hr
  | faulted st hresp hfault =>
    obtain rfl : r = ⟨st, 0⟩ := by simpa [hresp, eq_comm] using hr
    exact .inl ⟨hfault, rfl⟩
  | completed hresp hdigest =>
    obtain rfl : r = ⟨.ok, okValue s.eng.w i⟩ := by simpa [hresp, eq_comm] using hr
    exact .inr ⟨rfl, rfl, hdigest⟩

theorem okValue_size (w : Width) : okValue w .size = if w = .w224 then 28 else 32 := by
  cases w <;> rfl

theorem okValue_of_ne {i : Instr} (w : Width) (hblock : i ≠ .blocksize) (hsize : i ≠ .size) : okValue w i = 0 := by
  cases i with
  | blocksize => exact absurd rfl hblock
  | size => exact absurd rfl hsize
  | new _ | news _ _ | write _ | sum | reset => rfl

/-- Seven words of four bytes for W = 224, eight for W = 256. -/
theorem digestOf_length (w : Width) (h : Chain) : (digestOf w h).length = if w = .w224 then 28 else 32 := by
  have hword : ∀ word : Word, (bytesBe32 word).length = 4 := fun _ => rfl
  cases w <;> simp [digestOf, List.length_flatMap, hword, digestWords, Width.bits]

theorem Engine.digest_length (e : Engine) : e.digest.length = if e.w = .w224 then 28 else 32 :=
  digestOf_length e.w e.finalize.h

/-- Settles O38: the word on the port is illegal, or its command answers a fault or its value. -/
theorem responseValues : Obligations.ResponseValues := by
  intro s t r hstep hr
  obtain ⟨-, -, rfl⟩ | ⟨word, rest, hcmd, ⟨e, -, rfl⟩ | ⟨i, hdec, hexec⟩⟩ := step_next hstep
  · simp at hr
  · obtain rfl : r = ⟨.illegalCommand, 0⟩ := by simpa [eq_comm] using hr
    exact ⟨fun _ => rfl, nofun⟩
  obtain ⟨hfault, hvalue⟩ | ⟨hok, hvalue, hdigest⟩ := (exec_commandAnswer hexec).value hr
  · exact ⟨fun _ => hvalue, fun _ _ _ _ _ hok => absurd hok hfault⟩
  refine ⟨absurd hok, fun word' rest' i' hcmd' hdec' _ => ?_⟩
  obtain ⟨rfl, -⟩ := List.cons.inj (hcmd.symm.trans hcmd')
  obtain rfl := Except.ok.inj (hdec.symm.trans hdec')
  rw [hvalue]
  refine ⟨?_, ?_, okValue_of_ne _, fun hsum => ?_⟩
  · rintro rfl
    rfl
  · rintro rfl
    exact okValue_size _
  · rw [hdigest hsum, List.length_append, Engine.digest_length]

end Sys2Proof.Machine
end

section
/-! PROOFS. The compression core: the parse, the working vector, G and its order within a round, the feed-forward
(40_compression.md R102 to R111). -/

namespace Sys2Proof.Machine

/-! ### The parse of a block -/

theorem parseBlock_getElem (b : Block) (i : Nat) (h : i < 16) :
    (parseBlock b)[i] = be32 b[4 * i] b[4 * i + 1] b[4 * i + 2] b[4 * i + 3] := by
  simp [parseBlock]

/-- Settles O49: a message word is `be32` of its four bytes, and `be32` is positional. -/
theorem messageWordsBigEndian : Obligations.MessageWordsBigEndian := fun b i h => by
  rw [parseBlock_getElem b i h, be32_toNat]

/-! ### The working vector -/

theorem injectedWords_true (t : Counter) : injectedWords t true = #v[0, 0, 0, 0] := rfl

/-- The halves of the counter 0 are 0, the words a compression without the counter injects. -/
theorem injectedWords_zero : injectedWords 0 false = #v[0, 0, 0, 0] := rfl

theorem initVector_chain (h : Chain) (s : Salt) (t : Counter) (nc : Bool) (i : Nat) (hi : i < 8) :
    (initVector h s t nc)[i] = h[i] := by
  interval_cases i <;> rfl

theorem initVector_salt (h : Chain) (s : Salt) (t : Counter) (nc : Bool) (i : Nat) (hi : i < 4) :
    (initVector h s t nc)[8 + i] = s[i] ^^^ constC[i] := by
  interval_cases i <;> rfl

theorem initVector_injected (h : Chain) (s : Salt) (t : Counter) (nc : Bool) (i : Nat) (hi : i < 4) :
    (initVector h s t nc)[12 + i] = constC[4 + i] ^^^ (injectedWords t nc)[i] := by
  interval_cases i <;> rfl

/-- Settles O52: the words injected into `v[12..15]` are 0 or the halves of the counter, by the flag. -/
theorem workingVectorInit : Obligations.WorkingVectorInit := by
  intro h s t nc
  refine ⟨initVector_chain h s t nc, initVector_salt h s t nc, ?_, ?_⟩
  · rintro rfl i hi
    have hzero : (injectedWords t true)[i] = 0 := by
      interval_cases i <;> rfl
    rw [initVector_injected h s t true i hi, hzero]
    exact BitVec.xor_zero
  · rintro rfl
    have hword := initVector_injected h s t false
    exact ⟨hword 0 (by decide), hword 1 (by decide), hword 2 (by decide), hword 3 (by decide)⟩

/-- The counter enters a compression through the injected words only. -/
theorem compress_congr_injectedWords {t t' : Counter} {nc nc' : Bool}
    (heq : injectedWords t nc = injectedWords t' nc') (h : Chain) (s : Salt) (b : Block) :
    compress h s t nc b = compress h s t' nc' b := by
  simp only [compress, initVector, heq]

/-- Settles O57: both inject four zero words. -/
theorem noCounterIsZeroCounter : Obligations.NoCounterIsZeroCounter := fun h s t b =>
  compress_congr_injectedWords ((injectedWords_true t).trans injectedWords_zero.symm) h s b

/-! ### The feed-forward -/

theorem feedForward_getElem (h : Chain) (v : Vec16) (s : Salt) (i : Nat) (hi : i < 8) :
    (feedForward h v s)[i] = h[i] ^^^ v[i] ^^^ v[i + 8] ^^^ s[i % 4]'(Nat.mod_lt i (by decide)) := by
  simp [feedForward]

/-- Settles O56: the two loops are the equivalent form at `i` and at `i + 4`, which have the same salt word. -/
theorem feedForwardWords : Obligations.FeedForwardWords := by
  refine ⟨fun _ _ _ _ _ => rfl, fun h v s => ⟨fun i hi => ?_, fun i hi => ?_, feedForward_getElem h v s⟩⟩
  · simp only [feedForward_getElem h v s i (by omega), Nat.mod_eq_of_lt hi]
  · simp only [feedForward_getElem h v s (i + 4) (by omega), Nat.add_mod_right, Nat.mod_eq_of_lt hi]

/-! ### The permutation of a round -/

theorem coreRound_of_roundPerm_eq {r r' : Nat} (heq : roundPerm r = roundPerm r') (m v : Vec16) :
    coreRound m v r = coreRound m v r' := by
  rw [coreRound, coreRound, heq]

theorem roundPerm_add_ten (r : Nat) : roundPerm (r + 10) = roundPerm r := by
  simp only [roundPerm, Nat.add_mod_right]

theorem sigma_row_nodup : ∀ (k : Nat) (h : k < 10), sigma[k].toList.Nodup := by decide

/-- Settles O53: the permutation of a round depends on its number modulo 10. -/
theorem roundPermutationCycle : Obligations.RoundPermutationCycle :=
  ⟨fun _ _ _ => rfl, fun m v r => coreRound_of_roundPerm_eq (roundPerm_add_ten r) m v, sigma_row_nodup⟩

/-! ### The four words of a quadruple -/

/-- The indices of the state words a quadruple names. -/
def GQuad.indices (q : GQuad) : List (Fin 16) := [q.a, q.b, q.c, q.d]

theorem GQuad.mem_indices {q : GQuad} {j : Fin 16} : j ∈ q.indices ↔ j = q.a ∨ j = q.b ∨ j = q.c ∨ j = q.d := by
  simp [GQuad.indices]

theorem gIdx_indices_nodup : ∀ i : Fin 8, gIdx[i].indices.Nodup := by decide

theorem gWrite_of_notMem (v : Vec16) {q : GQuad} (r : GWords) {j : Fin 16} (hj : j ∉ q.indices) :
    (gWrite v q r)[j] = v[j] := by
  simp only [GQuad.mem_indices, not_or, Fin.ext_iff] at hj
  obtain ⟨ha, hb, hc, hd⟩ := hj
  simp [gWrite, Ne.symm ha, Ne.symm hb, Ne.symm hc, Ne.symm hd]

/-- At an index of the quadruple nothing is left of the vector written to. -/
theorem gWrite_of_mem (v w : Vec16) {q : GQuad} (r : GWords) {j : Fin 16} (hj : j ∈ q.indices) :
    (gWrite v q r)[j] = (gWrite w q r)[j] := by
  obtain rfl | rfl | rfl | rfl := GQuad.mem_indices.mp hj <;> simp [gWrite, Vector.getElem_set]

theorem gRead_gWrite (v : Vec16) {q : GQuad} (r : GWords) (hq : q.indices.Nodup) : gRead (gWrite v q r) q = r := by
  simp only [GQuad.indices, List.nodup_cons, List.mem_cons, List.not_mem_nil, or_false, not_or, Fin.ext_iff] at hq
  obtain ⟨⟨hab, hac, had⟩, ⟨hbc, hbd⟩, hcd, -⟩ := hq
  simp [gRead, gWrite, Ne.symm hab, Ne.symm hac, Ne.symm had, Ne.symm hbc, Ne.symm hbd, Ne.symm hcd]

theorem gRead_gWrite_of_disjoint (v : Vec16) {q q' : GQuad} (r : GWords) (h : q.indices.Disjoint q'.indices) :
    gRead (gWrite v q r) q' = gRead v q' := by
  have hkept {j : Fin 16} (hj : j ∈ q'.indices) : (gWrite v q r)[j] = v[j] :=
    gWrite_of_notMem v r fun hmem => h hmem hj
  simp only [gRead, hkept (j := q'.a) (by simp [GQuad.mem_indices]), hkept (j := q'.b) (by simp [GQuad.mem_indices]),
    hkept (j := q'.c) (by simp [GQuad.mem_indices]), hkept (j := q'.d) (by simp [GQuad.mem_indices])]

theorem gWrite_comm (v : Vec16) {q q' : GQuad} (r r' : GWords) (h : q.indices.Disjoint q'.indices) :
    gWrite (gWrite v q r) q' r' = gWrite (gWrite v q' r') q r := by
  have hword (j : Fin 16) : (gWrite (gWrite v q r) q' r')[j] = (gWrite (gWrite v q' r') q r)[j] := by
    by_cases hq : j ∈ q.indices
    · rw [gWrite_of_notMem _ r' (h hq), gWrite_of_mem v (gWrite v q' r') r hq]
    · rw [gWrite_of_notMem (gWrite v q' r') r hq]
      by_cases hq' : j ∈ q'.indices
      · exact gWrite_of_mem _ v r' hq'
      · rw [gWrite_of_notMem _ r' hq', gWrite_of_notMem _ r' hq', gWrite_of_notMem _ r hq]
  exact Vector.ext fun i hi => hword ⟨i, hi⟩

/-! ### One G application -/

/-- The words `G_i` writes, from the words it reads (R106, R107). -/
theorem gRead_gApply (m : Vec16) (perm : Vector (Fin 16) 16) (v : Vec16) (i : Fin 8) :
    gRead (gApply m perm v i) gIdx[i] =
      gMix (gRead v gIdx[i]) m[perm[2 * i.val]] m[perm[2 * i.val + 1]] constC[perm[2 * i.val]]
        constC[perm[2 * i.val + 1]] :=
  gRead_gWrite v _ (gIdx_indices_nodup i)

theorem gApply_of_notMem (m : Vec16) (perm : Vector (Fin 16) 16) (v : Vec16) {i : Fin 8} {j : Fin 16}
    (hj : j ∉ gIdx[i].indices) : (gApply m perm v i)[j] = v[j] :=
  gWrite_of_notMem v _ hj

/-- Settles O54: the four words read back are those `gMix` gives, and the others are not written. -/
theorem gRewritesItsFourWords : Obligations.GRewritesItsFourWords := by
  intro m perm v i q mx my cx cy v'
  have hread : gRead v' q = gMix (gRead v q) mx my cx cy := gRead_gApply m perm v i
  have ha : v'[q.a] = _ := congrArg GWords.a hread
  have hb : v'[q.b] = _ := congrArg GWords.b hread
  have hc : v'[q.c] = _ := congrArg GWords.c hread
  have hd : v'[q.d] = _ := congrArg GWords.d hread
  refine ⟨⟨_, _, _, _, rfl, rfl, rfl, rfl, ha, ?_, ?_, ?_⟩, fun j hja hjb hjc hjd => ?_⟩
  · rw [hd, ha]
    rfl
  · rw [hc, hd]
    rfl
  · rw [hb, hc]
    rfl
  · have hj : j ∉ q.indices := by simp [GQuad.mem_indices, hja, hjb, hjc, hjd]
    exact gApply_of_notMem m perm v hj

/-! ### The order within a step -/

/-- `G_i` neither reads nor writes a word that `G_j` writes. -/
theorem gApply_comm (m : Vec16) (perm : Vector (Fin 16) 16) (v : Vec16) {i j : Fin 8}
    (h : gIdx[i].indices.Disjoint gIdx[j].indices) :
    gApply m perm (gApply m perm v i) j = gApply m perm (gApply m perm v j) i := by
  simp only [gApply, gRead_gWrite_of_disjoint v _ h, gRead_gWrite_of_disjoint v _ h.symm]
  exact gWrite_comm v _ _ h

/-- Different columns have no word in common, nor have different diagonals: a step is four applications in a row. -/
theorem gIdx_disjoint_of_same_step : ∀ i j : Fin 8, i ≠ j → i.val / 4 = j.val / 4 →
    ∀ x ∈ gIdx[i].indices, x ∉ gIdx[j].indices := by
  decide

/-- Applications of one step, the column step (`k = 0`) or the diagonal step (`k = 1`), run in any order. -/
theorem foldl_gApply_of_perm {l l' : List (Fin 8)} {k : Nat} (hperm : l.Perm l') (hstep : ∀ i ∈ l', i.val / 4 = k)
    (m : Vec16) (perm : Vector (Fin 16) 16) (v : Vec16) :
    l.foldl (gApply m perm) v = l'.foldl (gApply m perm) v := by
  refine (hperm.symm.foldl_eq' (fun i hi j hj w => ?_) v).symm
  obtain rfl | hne := eq_or_ne i j
  · rfl
  · exact gApply_comm m perm w (gIdx_disjoint_of_same_step _ _ hne ((hstep _ hi).trans (hstep _ hj).symm))

/-- A round is the column step, then the diagonal step (R108). -/
theorem coreRound_eq_steps (m v : Vec16) (r : Nat) :
    coreRound m v r =
      [4, 5, 6, 7].foldl (gApply m (roundPerm r)) ([0, 1, 2, 3].foldl (gApply m (roundPerm r)) v) := by
  have hsteps : List.finRange 8 = [0, 1, 2, 3] ++ [4, 5, 6, 7] := by decide
  rw [coreRound, hsteps, List.foldl_append]

/-- Settles O55: each step is run in its own order, and the round is the columns, then the diagonals. -/
theorem columnAndDiagonalStepsCommute : Obligations.ColumnAndDiagonalStepsCommute := by
  intro m v r columns diagonals hcol hdiag
  rw [List.foldl_append, foldl_gApply_of_perm (k := 0) hcol (by decide),
    foldl_gApply_of_perm (k := 1) hdiag (by decide), coreRound_eq_steps]

end Sys2Proof.Machine
end

section
/-! PROOFS. What each command answers when nothing makes it wait, and the commands that open, restart and inspect a
session (41_stream.md R150, R155 to R159). -/

namespace Sys2Proof.Machine

/-! ### The command on the port -/

theorem step_of_decode {s : State} {word : Word} {rest : List Word} {i : Instr} (hcmd : s.cmdIn = word :: rest)
    (hdec : decode word = .ok i) : step s = exec i s := by
  simp only [step, hcmd, hdec]

theorem decode_of_decodeTableWord {nbits w : Nat} {i : Instr} (h : decodeTableWord nbits w = some i) :
    decode (tableWord nbits w) = .ok i := by
  unfold decodeTableWord at h
  cases hdec : decode (tableWord nbits w) with
  | error e => simp [hdec, Except.toOption] at h
  | ok j => simpa [hdec, Except.toOption] using h

/-- Settles O8: placing an instruction puts its word at the head of the command port. -/
theorem stepRunsDecodedCommand : Obligations.StepRunsDecodedCommand :=
  ⟨fun _ _ _ _ hcmd hdec => step_of_decode hcmd hdec,
    fun s _ _ _ h => step_of_decode (placeCommand_cmdIn _ _ s) (decode_of_decodeTableWord h)⟩

/-! ### What a command answers -/

theorem exec_news_of_length_eq {w : Width} {s : State} (hlen : 16 ≤ s.dataIn.length) :
    exec (.news w 16) s =
      .next (respond .ok 0 (openSession w (saltOfBytes (s.dataIn.take 16)) (consume 16 s))) := by
  rw [exec, execNews, withData_of_le hlen, if_pos rfl]

theorem exec_news_of_length_ne {w : Width} {len : Nat} {s : State} (hne : len ≠ 16) (hlen : len ≤ s.dataIn.length) :
    exec (.news w len) s = .next (raise .invalidSaltLength (consume len s)) := by
  rw [exec, execNews, withData_of_le hlen, if_neg hne]

theorem exec_write_of_configured {len : Nat} {s : State} (hcfg : s.eng.cfg = true) (hroom : s.eng.nx.val ≤ 63)
    (hlen : len ≤ s.dataIn.length) :
    exec (.write len) s =
      .next (respond .ok 0 (setEngine (s.eng.absorbAll (s.dataIn.take len)) (consume len s))) := by
  rw [exec, execWrite, withData_of_le hlen, whenConfigured_true (s := consume len s) hcfg,
    whenBufferOpen_of_le (s := consume len s) hroom, consume_eng]

theorem exec_write_of_unconfigured {len : Nat} {s : State} (hcfg : s.eng.cfg = false)
    (hlen : len ≤ s.dataIn.length) : exec (.write len) s = .next (raise .unconfigured (consume len s)) := by
  rw [exec, execWrite, withData_of_le hlen, whenConfigured_false (s := consume len s) hcfg]

theorem exec_sum_of_configured {s : State} (hcfg : s.eng.cfg = true) (hroom : s.eng.nx.val ≤ 63)
    (hready : s.outReady = true) : exec .sum s = .next (respond .ok 0 (emit s.eng.digest s)) := by
  rw [exec, execSum, whenConfigured_true hcfg, whenOutReady_true hready, whenBufferOpen_of_le hroom]

theorem exec_reset_of_configured {s : State} (hcfg : s.eng.cfg = true) :
    exec .reset s = .next (respond .ok 0 (restartSession s)) := by
  rw [exec, execReset, whenConfigured_true hcfg]

theorem exec_reset_of_unconfigured {s : State} (hcfg : s.eng.cfg = false) :
    exec .reset s = .next (raise .unconfigured s) := by
  rw [exec, execReset, whenConfigured_false hcfg]

theorem exec_size_of_configured {s : State} (hcfg : s.eng.cfg = true) :
    exec .size s = .next (respond .ok (okValue s.eng.w .size) s) := by
  rw [exec, execSize, whenConfigured_true hcfg, okValue]

theorem exec_size_of_unconfigured {s : State} (hcfg : s.eng.cfg = false) :
    exec .size s = .next (raise .unconfigured s) := by
  rw [exec, execSize, whenConfigured_false hcfg]

/-! ### Fresh sessions -/

theorem openSession_isFresh (w : Width) (salt : Salt) (s : State) : (openSession w salt s).eng.IsFresh w salt :=
  ⟨rfl, rfl, rfl, rfl, rfl, rfl, rfl⟩

theorem restartSession_isFresh {s : State} (hcfg : s.eng.cfg = true) :
    (restartSession s).eng.IsFresh s.eng.w s.eng.salt :=
  ⟨hcfg, rfl, rfl, rfl, rfl, rfl, rfl⟩

theorem Engine.IsFresh.cfg_eq {e : Engine} {w : Width} {salt : Salt} (h : e.IsFresh w salt) : e.cfg = true := by
  obtain ⟨hcfg, -⟩ := h
  exact hcfg

/-- An empty buffer holds no specified byte, so the width and the salt determine a fresh session. -/
theorem Engine.IsFresh.sameOpenSession {e e' : Engine} {w : Width} {salt : Salt} (h : e.IsFresh w salt)
    (h' : e'.IsFresh w salt) : e.SameOpenSession e' := by
  obtain ⟨-, hw, hsalt, hh, ht, hnx, hnullt⟩ := h
  obtain ⟨-, hw', hsalt', hh', ht', hnx', hnullt'⟩ := h'
  refine ⟨⟨hw.trans hw'.symm, hh.trans hh'.symm, hsalt.trans hsalt'.symm, ht.trans ht'.symm, hnx.trans hnx'.symm,
    hnullt.trans hnullt'.symm, fun i _ hi => ?_⟩, ?_⟩
  · simp [hnx] at hi
  · simp [hnx]

/-- A command that constructs or restarts a session and answers OK leaves a fresh one. -/
theorem exec_isFresh {i : Instr} {s t : State} (hi : constructs i = true ∨ i = .reset) (h : exec i s = .next t)
    (hresp : t.resps = s.resps ++ [⟨.ok, 0⟩]) : t.eng.IsFresh t.eng.w t.eng.salt := by
  cases i with
  | new w =>
    obtain rfl := execNew_next h
    exact openSession_isFresh _ _ s
  | news w len =>
    obtain ⟨-, rfl⟩ | ⟨-, -, rfl⟩ | ⟨-, -, rfl⟩ := execNews_next h
    · simp at hresp
    · simp at hresp
    · exact openSession_isFresh _ _ (consume len s)
  | reset =>
    obtain ⟨-, rfl⟩ | ⟨hcfg, rfl⟩ := execReset_next h
    · simp at hresp
    · exact restartSession_isFresh hcfg
  | write _ | sum | blocksize | size => simp [constructs] at hi

theorem exec_reset_of_isFresh {t u : State} {w : Width} {salt : Salt} (ht : t.eng.IsFresh w salt)
    (h : exec .reset t = .next u) : u.eng.IsFresh w salt := by
  have ⟨hcfg, hw, hsalt, _⟩ := ht
  rw [exec_reset_of_configured hcfg] at h
  obtain rfl := Host.Outcome.next.inj h
  exact hw ▸ hsalt ▸ restartSession_isFresh hcfg

theorem iv_eq (w : Width) : iv w = if w = .w224 then iv224 else iv256 := by cases w <;> rfl

/-! ### NEW, NEWS and RESET -/

/-- Settles O12: the row of the opcode map, and a fresh session with the salt 0. -/
theorem newOpensUnsaltedSession : Obligations.NewOpensUnsaltedSession :=
  ⟨fun word hrow => (decode_eq_new_iff word _).mpr ⟨hrow, rfl⟩,
    fun w _ => ⟨_, rfl, responded_of_silent _ _, rfl, rfl, rfl, iv_eq w, rfl, rfl, rfl⟩⟩

theorem saltOfBytes_getElem (bytes : List Byte) (i : Nat) (hi : i < 4) : (saltOfBytes bytes)[i] = wordAt bytes i := by
  rw [saltOfBytes, Vector.getElem_ofFn, wordAt]

theorem wordAt_take {len i : Nat} (hi : 4 * i + 3 < len) (bytes : List Byte) :
    wordAt (bytes.take len) i = wordAt bytes i := by
  have hbyte {n : Nat} (hn : n ≤ 4 * i + 3) : (bytes.take len).getD n 0 = bytes.getD n 0 := by
    rw [List.getD_eq_getElem?_getD, List.getElem?_take_of_lt (by omega), List.getD_eq_getElem?_getD]
  rw [wordAt, wordAt, hbyte (Nat.le_add_right _ 3), hbyte (Nat.add_le_add_left (by decide) _),
    hbyte (Nat.add_le_add_left (by decide) _), hbyte (Nat.le_refl _)]

/-- Settles O14, by the two answers of a NEWS whose bytes have arrived. -/
theorem newsOpensSaltedSession : Obligations.NewsOpensSaltedSession :=
  ⟨fun word hrow => (decode_eq_news_iff word _ _).mpr ⟨hrow, rfl, rfl⟩,
    fun w s hlen => ⟨_, exec_news_of_length_eq hlen, responded_of_silent _ _, rfl, rfl,
      fun i hi => (saltOfBytes_getElem _ i hi).trans (wordAt_take (by omega) s.dataIn), iv_eq w, rfl, rfl, rfl⟩,
    fun _ _ _ hne hlen => ⟨_, exec_news_of_length_ne hne hlen, responded_of_silent _ _, rfl⟩⟩

/-- Settles O16; that a second restart changes nothing specified is that both sessions are fresh with the same width and
salt. -/
theorem resetRestartsSession : Obligations.ResetRestartsSession := by
  refine ⟨by decide, fun s hcfg => ?_, fun s hcfg => ?_, fun i s t u hi hst hresp htu => ?_⟩
  · exact ⟨_, exec_reset_of_configured hcfg, responded_of_silent _ _, iv_eq s.eng.w, rfl, rfl, rfl, rfl, rfl, hcfg⟩
  · exact ⟨_, exec_reset_of_unconfigured hcfg, responded_of_silent _ _, rfl⟩
  · have ht := exec_isFresh hi hst hresp
    have hu := exec_reset_of_isFresh ht htu
    exact ⟨hu.cfg_eq.trans ht.cfg_eq.symm, (hu.sameOpenSession ht).same⟩

/-- Settles O34, by the answers of each command. -/
theorem sessionCommandsFrame : Obligations.SessionCommandsFrame := by
  refine ⟨fun w s t h => ?_, fun w len s t h => ?_, fun s t h => ?_⟩
  · obtain rfl := execNew_next h
    exact ⟨rfl, rfl, rfl⟩
  · obtain ⟨-, rfl⟩ | ⟨-, -, rfl⟩ | ⟨-, hlen, rfl⟩ := execNews_next h
    · exact ⟨.inl rfl, rfl, rfl, fun _ => rfl⟩
    · exact ⟨.inr rfl, rfl, rfl, fun _ => rfl⟩
    · exact ⟨.inr rfl, rfl, rfl, fun hne => absurd hlen hne⟩
  · obtain ⟨-, rfl⟩ | ⟨-, rfl⟩ := execReset_next h
    · exact ⟨rfl, rfl, rfl, rfl, rfl, rfl⟩
    · exact ⟨rfl, rfl, rfl, rfl, rfl, rfl⟩

/-! ### BLOCKSIZE and SIZE -/

/-- Settles O17: BLOCKSIZE has one answer. -/
theorem blocksizeAnswers64 : Obligations.BlocksizeAnswers64 := ⟨by decide, fun _ => rfl⟩

/-- Settles O18, by the answers of SIZE with and without a session. -/
theorem sizeAnswersDigestBytes : Obligations.SizeAnswersDigestBytes := by
  refine ⟨by decide, fun s hcfg => ?_, fun s hcfg => exec_size_of_unconfigured hcfg⟩
  rw [exec_size_of_configured hcfg, okValue_size, respond]

/-- Settles O19: both are 28 or 32, by the width. -/
theorem sizeIsTheDigestLength : Obligations.SizeIsTheDigestLength := by
  intro s t u hcfg hready hroom hsize hsum
  rw [exec_size_of_configured hcfg] at hsize
  rw [exec_sum_of_configured hcfg hroom hready] at hsum
  obtain rfl := Host.Outcome.next.inj hsize
  obtain rfl := Host.Outcome.next.inj hsum
  refine ⟨okValue s.eng.w .size, rfl, ?_⟩
  rw [respond_dataOut, emit_dataOut, List.length_append, Engine.digest_length, okValue_size]
  split <;> rfl

end Sys2Proof.Machine
end

section
/-! PROOFS. ABSORB on a byte and on a byte string: where a byte is stored, the closed form, and the source's direct
procedure (41_stream.md R151 to R154, R161). -/

namespace Sys2Proof.Machine

/-! ### One byte -/

theorem setIfInBounds_eq_set (x : Block) (byte : Byte) {i : Nat} (hi : i < 64) :
    x.setIfInBounds i byte = x.set i byte :=
  Vector.ext fun j hj => by rw [Vector.getElem_setIfInBounds, Vector.getElem_set]

theorem push_eq_of_lt {e : Engine} (byte : Byte) (h : e.nx.val < 63) : e.push byte =
    { e with x := e.x.set e.nx.val byte, nx := ⟨e.nx.val + 1, Nat.succ_lt_succ (Nat.lt_succ_of_lt h)⟩ } := by
  have hnx : e.nx + 1 = ⟨e.nx.val + 1, Nat.succ_lt_succ (Nat.lt_succ_of_lt h)⟩ :=
    Fin.ext (push_nx_val e byte (by omega))
  rw [Engine.push, setIfInBounds_eq_set e.x byte (by omega), hnx]

/-- Settles O20: below 63 the byte is only stored; at 63 it completes the block. -/
theorem absorbAppendsOrCompresses : Obligations.AbsorbAppendsOrCompresses := by
  refine ⟨fun _ _ => rfl, fun e byte h => ?_, fun e byte h => ?_⟩
  · rw [absorb_of_lt e byte h, push_eq_of_lt byte h]
  · have hfull : e.nx.val = 63 := congrArg Fin.val h
    have hx : (e.push byte).x = e.x.set 63 byte := by
      rw [Engine.push_x, hfull, setIfInBounds_eq_set e.x byte (by decide)]
    rw [absorb_of_full e byte hfull, hx]
    exact ⟨rfl, rfl, rfl, hx, rfl, rfl, rfl, rfl⟩

theorem absorb_x (e : Engine) (byte : Byte) : (e.absorb byte).x = e.x.setIfInBounds e.nx.val byte := by
  unfold Engine.absorb
  split <;> rfl

theorem absorb_nx_val {e : Engine} (byte : Byte) (h : e.nx.val ≤ 63) :
    (e.absorb byte).nx.val = (e.nx.val + 1) % 64 := by
  by_cases hfull : e.nx.val = 63
  · rw [absorb_of_full e byte hfull, hfull]
    rfl
  · rw [absorb_of_lt e byte (by omega), push_nx_val e byte h, Nat.mod_eq_of_lt (by omega)]

/-! ### Many bytes -/

theorem absorbAll_nx_val {e : Engine} (bytes : List Byte) (h : e.nx.val ≤ 63) :
    (e.absorbAll bytes).nx.val = (e.nx.val + bytes.length) % 64 := by
  induction bytes generalizing e with
  | nil => exact (Nat.mod_eq_of_lt (Nat.lt_succ_of_le h)).symm
  | cons byte bytes ih =>
    have hnx := absorb_nx_val byte h
    rw [absorbAll_cons, ih (by omega), hnx, List.length_cons]
    omega

theorem absorbAll_room {e : Engine} (bytes : List Byte) (h : e.nx.val ≤ 63) : (e.absorbAll bytes).nx.val ≤ 63 := by
  rw [absorbAll_nx_val bytes h]
  omega

/-- Byte `k` of the string is stored at position `(nx + k) mod 64`; the other positions are not written. -/
theorem absorbAll_x_of_notStored {e : Engine} {bytes : List Byte} (h : e.nx.val ≤ 63) {i : Nat} (hi : i < 64)
    (hstored : ∀ k < bytes.length, (e.nx.val + k) % 64 ≠ i) : (e.absorbAll bytes).x[i] = e.x[i] := by
  induction bytes generalizing e with
  | nil => rfl
  | cons byte bytes ih =>
    have hnx := absorb_nx_val byte h
    have hfirst : e.nx.val ≠ i := by
      have hne := hstored 0 (Nat.zero_lt_succ _)
      rwa [Nat.add_zero, Nat.mod_eq_of_lt (by omega)] at hne
    have hrest : ∀ k < bytes.length, ((e.absorb byte).nx.val + k) % 64 ≠ i := by
      intro k hk
      have hne := hstored (k + 1) (Nat.succ_lt_succ hk)
      omega
    rw [absorbAll_cons, ih (by omega) hrest]
    simp [absorb_x, hfirst]

/-! ### Completing a block -/

/-- The bytes that complete the block in the buffer leave the session of one BLOCK step on that block, the buffer
empty. -/
theorem absorbAll_sameOpenSession_block {e : Engine} {bytes : List Byte} (hroom : e.nx.val ≤ 63)
    (hfill : e.nx.val + bytes.length = 64) :
    (e.absorbAll bytes).SameOpenSession { e.block (blockOfBytes (e.bufferBytes ++ bytes)) with nx := 0 } := by
  obtain ⟨hh, ht, hnx⟩ := absorbAll_of_eq e bytes hroom hfill
  refine ⟨⟨absorbAll_w e bytes, hh, absorbAll_salt e bytes, ht, hnx, absorbAll_nullt e bytes, fun i _ hi => ?_⟩, ?_⟩
  · simp [hnx] at hi
  · simp [hnx]

/-- The string is cut where the block in the buffer is complete. -/
theorem absorbAll_eq_take_drop (e : Engine) (bytes : List Byte) (k : Nat) :
    e.absorbAll bytes = (e.absorbAll (bytes.take k)).absorbAll (bytes.drop k) := by
  rw [← absorbAll_append, List.take_append_drop]

theorem bufferBytes_append_take {e : Engine} (hroom : e.nx.val ≤ 63) (data : List Byte) :
    (e.bufferBytes ++ data).take 64 = e.bufferBytes ++ data.take (64 - e.nx.val) := by
  have hlen := bufferBytes_length e hroom
  rw [List.take_append, hlen, List.take_of_length_le (by omega)]

theorem bufferBytes_append_drop {e : Engine} (hroom : e.nx.val ≤ 63) (data : List Byte) :
    (e.bufferBytes ++ data).drop 64 = data.drop (64 - e.nx.val) := by
  have hlen := bufferBytes_length e hroom
  rw [List.drop_append, hlen, List.drop_eq_nil_of_le (by omega), List.nil_append]

theorem bufferBytes_of_nx_eq_zero {e : Engine} (h : e.nx = 0) : e.bufferBytes = [] := by
  simp [Engine.bufferBytes, h]

theorem absorbAll_sameOpenSession_block_of_empty {e : Engine} {bytes : List Byte} (hempty : e.nx = 0)
    (hlen : bytes.length = 64) : (e.absorbAll bytes).SameOpenSession (e.block (blockOfBytes bytes)) := by
  have hblock := absorbAll_sameOpenSession_block (e := e) (bytes := bytes) (by simp [hempty]) (by simp [hempty, hlen])
  have hnx : ({ e.block (blockOfBytes bytes) with nx := 0 } : Engine) = e.block (blockOfBytes bytes) := by
    simp [Engine.block, hempty]
  rwa [bufferBytes_of_nx_eq_zero hempty, List.nil_append, hnx] at hblock

/-! ### The closed form -/

theorem counter_blocks_succ (k : Nat) :
    BitVec.ofNat 64 (512 * (k + 1)) = (512 : Counter) + BitVec.ofNat 64 (512 * k) := by
  rw [Nat.mul_succ, Nat.add_comm, BitVec.ofNat_add]
  rfl

/-- The chain value after the first `k` blocks of `bytes`, block `j` compressed with the counter
`t + 512 (j + 1)` (R161). -/
def Engine.chainAfter (e : Engine) (bytes : List Byte) (k : Nat) : Chain :=
  (List.range k).foldl (fun h j =>
    compress h e.salt (e.t + BitVec.ofNat 64 (512 * (j + 1))) e.nullt
      (blockOfBytes ((bytes.drop (64 * j)).take 64))) e.h

/-- The first block is compressed with `t + 512`, and the others from there. -/
theorem Engine.chainAfter_succ {e e' : Engine} {bytes : List Byte} (k : Nat)
    (hh : e'.h = compress e.h e.salt (e.t + 512) e.nullt (blockOfBytes (bytes.take 64))) (ht : e'.t = e.t + 512)
    (hsalt : e'.salt = e.salt) (hnullt : e'.nullt = e.nullt) :
    e.chainAfter bytes (k + 1) = e'.chainAfter (bytes.drop 64) k := by
  have hcounter (j : Nat) :
      e.t + BitVec.ofNat 64 (512 * (j + 1 + 1)) = e'.t + BitVec.ofNat 64 (512 * (j + 1)) := by
    rw [ht, counter_blocks_succ (j + 1), BitVec.add_assoc]
  have hbytes (j : Nat) : bytes.drop (64 * (j + 1)) = (bytes.drop 64).drop (64 * j) := by
    rw [List.drop_drop, Nat.mul_succ, Nat.add_comm]
  have hfirst : compress e.h e.salt (e.t + BitVec.ofNat 64 (512 * (0 + 1))) e.nullt
      (blockOfBytes ((bytes.drop (64 * 0)).take 64)) = e'.h := hh.symm
  simp only [Engine.chainAfter, List.range_succ_eq_map, List.foldl_cons, List.foldl_map, hfirst, Nat.succ_eq_add_one,
    hcounter, hbytes, hsalt, hnullt]

/-- What absorbing leaves, when `k` blocks of `bytes`, the buffered bytes followed by the data, are complete (R161). -/
structure Engine.AbsorbedBlocks (e : Engine) (bytes : List Byte) (k : Nat) (e' : Engine) : Prop where
  t : e'.t = e.t + BitVec.ofNat 64 (512 * k)
  bufferBytes : e'.bufferBytes = bytes.drop (64 * k)
  h : e'.h = e.chainAfter bytes k

/-- By induction on the number of completed blocks. -/
theorem absorbAll_absorbedBlocks {e : Engine} {data : List Byte} {k : Nat} (hroom : e.nx.val ≤ 63)
    (hk : (e.nx.val + data.length) / 64 = k) :
    e.AbsorbedBlocks (e.bufferBytes ++ data) k (e.absorbAll data) := by
  induction k generalizing e data with
  | zero =>
    obtain ⟨hh, ht, -, hbuf⟩ := absorbAll_of_lt e data (by omega)
    exact ⟨by rw [ht]; simp, hbuf, hh⟩
  | succ k ih =>
    have hfill : e.nx.val + (data.take (64 - e.nx.val)).length = 64 := by
      rw [List.length_take]
      omega
    obtain ⟨hh, ht, hnx⟩ := absorbAll_of_eq e _ hroom hfill
    have hrest := ih (e := e.absorbAll (data.take (64 - e.nx.val))) (data := data.drop (64 - e.nx.val))
      (by simp [hnx]) (by rw [hnx, List.length_drop]; simp; omega)
    rw [bufferBytes_of_nx_eq_zero hnx, List.nil_append, ← absorbAll_eq_take_drop, ← bufferBytes_append_drop hroom]
      at hrest
    rw [← bufferBytes_append_take hroom] at hh
    refine ⟨?_, ?_, ?_⟩
    · rw [hrest.t, ht, counter_blocks_succ, BitVec.add_assoc]
    · rw [hrest.bufferBytes, List.drop_drop, Nat.mul_succ, Nat.add_comm (64 * k)]
    · rw [hrest.h, Engine.chainAfter_succ k hh ht (absorbAll_salt e _) (absorbAll_nullt e _)]

/-! ### The source's procedure -/

theorem Engine.SameSession.trans {e e' e'' : Engine} (h : e.SameSession e') (h' : e'.SameSession e'') :
    e.SameSession e'' := by
  obtain ⟨hw, hh, hsalt, ht, hnx, hnullt, hx⟩ := h
  obtain ⟨hw', hh', hsalt', ht', hnx', hnullt', hx'⟩ := h'
  exact ⟨hw.trans hw', hh.trans hh', hsalt.trans hsalt', ht.trans ht', hnx.trans hnx', hnullt.trans hnullt',
    fun i h64 hi => (hx i h64 hi).trans (hx' i h64 (hnx ▸ hi))⟩

theorem Engine.fillBuffer_bufferBytes {e : Engine} {tail : List Byte} (h : tail.length < 64) :
    (e.fillBuffer tail).bufferBytes = tail := by
  apply List.ext_getElem
  · rw [bufferBytes_length _ (by rw [Engine.fillBuffer_nx_val e tail h]; omega), Engine.fillBuffer_nx_val e tail h]
  · intro i _ hi
    simp [Engine.bufferBytes, blockOfBytes_getElem, hi]

/-- Bytes that complete no block are copied behind those in the buffer. -/
theorem absorbAll_sameSession_fillBuffer {e : Engine} {data : List Byte} (h : e.nx.val + data.length < 64) :
    (e.absorbAll data).SameSession (e.fillBuffer (e.bufferBytes ++ data)) := by
  obtain ⟨hh, ht, hnx, hbuf⟩ := absorbAll_of_lt e data h
  have htail : (e.bufferBytes ++ data).length = e.nx.val + data.length := by
    rw [List.length_append, bufferBytes_length e (by omega)]
  have hnx' : (e.absorbAll data).nx = (e.fillBuffer (e.bufferBytes ++ data)).nx := by
    apply Fin.ext
    rw [hnx, Engine.fillBuffer_nx_val e _ (by omega), htail]
  have hbuf' : (e.absorbAll data).bufferBytes = (e.fillBuffer (e.bufferBytes ++ data)).bufferBytes := by
    rw [hbuf, Engine.fillBuffer_bufferBytes (by omega)]
  exact ⟨by simp, by simp [hh], by simp, by simp [ht], hnx', by simp, sameBytes_of_bufferBytes hnx' hbuf'⟩

theorem absorbAll_sameSession_fillBuffer_of_empty {e : Engine} {data : List Byte} (hempty : e.nx = 0)
    (h : data.length < 64) : (e.absorbAll data).SameSession (e.fillBuffer data) := by
  have hfill := absorbAll_sameSession_fillBuffer (e := e) (data := data) (by simpa [hempty] using h)
  rwa [bufferBytes_of_nx_eq_zero hempty, List.nil_append] at hfill

/-- By induction on the fuel of the direct procedure, which compresses one block a round. -/
theorem absorbAll_sameSession_directBlocks {e : Engine} {data : List Byte} {fuel : Nat} (hempty : e.nx = 0)
    (hfuel : data.length ≤ fuel) :
    (e.absorbAll data).SameSession ((e.directBlocks fuel data).1.fillBuffer (e.directBlocks fuel data).2) := by
  induction fuel generalizing e data with
  | zero => exact absorbAll_sameSession_fillBuffer_of_empty hempty (by omega)
  | succ fuel ih =>
    rw [Engine.directBlocks]
    split
    case isTrue hlt => exact absorbAll_sameSession_fillBuffer_of_empty hempty hlt
    case isFalse hge =>
      have hblock := absorbAll_sameOpenSession_block_of_empty (bytes := data.take 64) hempty
        (by rw [List.length_take]; omega)
      rw [absorbAll_eq_take_drop e data 64]
      exact (hblock.absorbAll _).same.trans (ih hempty (by rw [List.length_drop]; omega))

/-- Settles O25: the first block is completed from the buffer, the others are compressed directly. -/
theorem directWriteSameState : Obligations.DirectWriteSameState := by
  intro e data hroom
  unfold Engine.writeDirect
  dsimp only
  split
  case isTrue hlt => exact absorbAll_sameSession_fillBuffer hlt
  case isFalse hge =>
    have hfirst := absorbAll_sameOpenSession_block (e := e) (bytes := data.take (64 - e.nx.val)) hroom
      (by rw [List.length_take]; omega)
    rw [absorbAll_eq_take_drop e data (64 - e.nx.val)]
    exact (hfirst.absorbAll _).same.trans
      (absorbAll_sameSession_directBlocks rfl (by rw [List.length_drop]; omega))

end Sys2Proof.Machine
end

section
/-! PROOFS. WRITE on the whole machine, streams of WRITEs and other commands within a session, and hashing a message
again after RESET (41_stream.md R153, R157, R160 to R162; 95_test_vectors.md T7). -/

namespace Sys2Proof.Machine

/-! ### One WRITE -/

/-- Settles O21, by the two answers of a WRITE whose bytes have arrived. -/
theorem writeAbsorbsItsBytes : Obligations.WriteAbsorbsItsBytes := by
  refine ⟨fun word hrow => (decode_eq_write_iff word _).mpr ⟨hrow, rfl⟩, fun len s hcfg hroom hlen => ?_,
    fun len s hcfg hlen => ?_⟩
  · refine ⟨_, exec_write_of_configured hcfg hroom hlen, responded_of_silent _ _, rfl, absorbAll_nullt _ _,
      (absorbAll_cfg _ _).trans hcfg, absorbAll_w _ _, absorbAll_salt _ _, ?_⟩
    rintro rfl
    rfl
  · exact ⟨_, exec_write_of_unconfigured hcfg hlen, responded_of_silent _ _, rfl⟩

/-- Settles O22: the fill is counted byte by byte, the rest block by block. -/
theorem writeClosedForm : Obligations.WriteClosedForm := by
  intro len s t hcfg hroom hlen hwrite bytes k
  rw [exec_write_of_configured hcfg hroom hlen] at hwrite
  obtain rfl := Host.Outcome.next.inj hwrite
  have htake : (s.dataIn.take len).length = len := List.length_take_of_le hlen
  have hnx := absorbAll_nx_val (s.dataIn.take len) hroom
  have hblocks := absorbAll_absorbedBlocks (data := s.dataIn.take len) hroom rfl
  rw [htake] at hnx hblocks
  exact ⟨hnx, hblocks.t, hblocks.bufferBytes, hblocks.h⟩

/-- Settles O26, by the answers of WRITE. -/
theorem execWrite_frame : Obligations.WriteFrame := by
  intro len s t h
  obtain ⟨-, rfl⟩ | ⟨-, -, rfl⟩ | ⟨hlen, -, hroom, rfl⟩ := execWrite_next h
  · exact ⟨rfl, rfl, rfl, rfl, rfl, rfl, rfl, fun _ => ⟨rfl, rfl⟩, fun _ _ _ => rfl⟩
  · exact ⟨rfl, rfl, rfl, rfl, rfl, rfl, rfl, fun _ => ⟨rfl, rfl⟩, fun _ _ _ => rfl⟩
  · have htake : (s.dataIn.take len).length = len := List.length_take_of_le hlen
    refine ⟨absorbAll_cfg _ _, absorbAll_w _ _, absorbAll_salt _ _, absorbAll_nullt _ _, rfl, rfl, rfl,
      fun hfits => ?_, fun i hi hstored => ?_⟩
    · obtain ⟨hh, ht, -⟩ := absorbAll_of_lt s.eng (s.dataIn.take len) (by rwa [htake])
      exact ⟨hh, ht⟩
    · exact absorbAll_x_of_notStored hroom hi (by rwa [htake])

/-! ### Sequences of commands -/

@[simp] theorem execAll_nil (s : State) : execAll [] s = .next s := rfl

theorem execAll_cons {i : Instr} {s t : State} (h : exec i s = .next t) (is : List Instr) :
    execAll (i :: is) s = execAll is t := by
  simp only [execAll, h]

theorem execAll_append {is : List Instr} {s t : State} (h : execAll is s = .next t) (js : List Instr) :
    execAll (is ++ js) s = execAll js t := by
  induction is generalizing s with
  | nil =>
    obtain rfl := Host.Outcome.next.inj h
    rfl
  | cons i is ih =>
    cases hexec : exec i s with
    | next u =>
      rw [execAll_cons hexec] at h
      rw [List.cons_append, execAll_cons hexec, ih h]
    | fault f => simp [execAll, hexec] at h
    | refused r => simp [execAll, hexec] at h

/-- The WRITEs of strings that stand on data-in one after another absorb them in order. -/
theorem execAll_writes {chunks : List (List Byte)} {rest : List Byte} {s : State} (hcfg : s.eng.cfg = true)
    (hroom : s.eng.nx.val ≤ 63) (hin : s.dataIn = chunks.flatten ++ rest) :
    ∃ t : State, execAll (chunks.map fun c => Instr.write c.length) s = .next t ∧
      t.eng = s.eng.absorbAll chunks.flatten ∧ t.dataIn = rest ∧ t.dataOut = s.dataOut := by
  induction chunks generalizing s with
  | nil => exact ⟨s, rfl, rfl, hin, rfl⟩
  | cons c chunks ih =>
    rw [List.flatten_cons, List.append_assoc] at hin
    have hwrite := exec_write_of_configured (len := c.length) hcfg hroom (by simp [hin])
    rw [hin, List.take_left] at hwrite
    obtain ⟨t, hexec, heng, htin, htout⟩ := ih (s := respond .ok 0 (setEngine (s.eng.absorbAll c) (consume c.length s)))
      ((absorbAll_cfg s.eng c).trans hcfg) (absorbAll_room c hroom) (by simp [hin])
    refine ⟨t, ?_, ?_, htin, htout⟩
    · rw [List.map_cons, execAll_cons hwrite, hexec]
    · rw [heng, List.flatten_cons, absorbAll_append]
      rfl

/-- Settles O23: both absorb the concatenation and leave what follows it on data-in. -/
theorem writeStreamingEquivalence : Obligations.WriteStreamingEquivalence := by
  intro chunks rest s hcfg hroom hin
  obtain ⟨t, hexec, heng, htin, htout⟩ := execAll_writes hcfg hroom hin
  have hwrite := exec_write_of_configured (len := chunks.flatten.length) hcfg hroom (by simp [hin])
  rw [hin, List.take_left] at hwrite
  refine ⟨t, _, hexec, hwrite, heng, ?_, htout⟩
  simp [htin, hin]

/-- A command that neither constructs nor restarts a session only absorbs the message bytes it takes. -/
theorem exec_keeps_session {i : Instr} {s : State} (hcfg : s.eng.cfg = true) (hroom : s.eng.nx.val ≤ 63)
    (hready : s.outReady = true) (hi : constructs i = false) (hne : i ≠ .reset)
    (hlen : i.dataLen ≤ s.dataIn.length) :
    ∃ t : State, exec i s = .next t ∧ t.eng = s.eng.absorbAll (bytesWritten i s.dataIn) ∧
      t.dataIn = s.dataIn.drop i.dataLen ∧ t.outReady = true := by
  cases i with
  | new w => simp [constructs] at hi
  | news w len =>
    exact ⟨_, exec_news_of_length_ne (by simpa [constructs] using hi) hlen, rfl, rfl, hready⟩
  | write len => exact ⟨_, exec_write_of_configured hcfg hroom hlen, rfl, rfl, hready⟩
  | sum => exact ⟨_, exec_sum_of_configured hcfg hroom hready, rfl, rfl, hready⟩
  | reset => exact absurd rfl hne
  | blocksize => exact ⟨_, rfl, rfl, rfl, hready⟩
  | size => exact ⟨_, exec_size_of_configured hcfg, rfl, rfl, hready⟩

/-- Settles O24, by induction on the commands: each absorbs its own message bytes. -/
theorem sessionStateIsItsMessage : Obligations.SessionStateIsItsMessage := by
  intro is
  induction is with
  | nil => exact fun s _ _ _ _ _ => ⟨s, rfl, rfl, rfl⟩
  | cons i is ih =>
    intro s hcfg hroom hready his hlen
    obtain ⟨⟨hi, hne⟩, hrest⟩ := List.forall_mem_cons.mp his
    rw [List.map_cons, List.sum_cons] at hlen ⊢
    obtain ⟨t, hexec, heng, htin, htready⟩ := exec_keeps_session hcfg hroom hready hi hne (by omega)
    obtain ⟨u, hexecAll, hueng, huin⟩ := ih t (by rw [heng, absorbAll_cfg, hcfg])
      (by rw [heng]; exact absorbAll_room _ hroom) htready hrest (by rw [htin, List.length_drop]; omega)
    refine ⟨u, ?_, ?_, ?_⟩
    · rw [execAll_cons hexec, hexecAll]
    · rw [hueng, heng, htin, messageBytes, absorbAll_append]
    · rw [huin, htin, List.drop_drop]

/-! ### Hashing a message -/

/-- WRITE and SUM in an open session: the digest is that of the session the message leaves. -/
theorem execAll_write_sum {m rest : List Byte} {s : State} (hcfg : s.eng.cfg = true) (hroom : s.eng.nx.val ≤ 63)
    (hready : s.outReady = true) (hin : s.dataIn = m ++ rest) :
    ∃ t : State, execAll [.write m.length, .sum] s = .next t ∧ t.eng = s.eng.absorbAll m ∧ t.dataIn = rest ∧
      t.dataOut = s.dataOut ++ (s.eng.absorbAll m).digest ∧ t.outReady = true := by
  have hwrite := exec_write_of_configured (len := m.length) hcfg hroom (by simp [hin])
  rw [hin, List.take_left] at hwrite
  have hsum := exec_sum_of_configured (s := respond .ok 0 (setEngine (s.eng.absorbAll m) (consume m.length s)))
    ((absorbAll_cfg s.eng m).trans hcfg) (absorbAll_room m hroom) hready
  exact ⟨_, (execAll_cons hwrite _).trans (execAll_cons hsum []), rfl, by simp [hin], rfl, hready⟩

theorem exec_news_opens {salt rest : List Byte} {s : State} (w : Width) (hsalt : salt.length = 16)
    (hin : s.dataIn = salt ++ rest) :
    ∃ t : State, exec (.news w 16) s = .next t ∧ t.eng.IsFresh w (saltOfBytes salt) ∧ t.dataIn = rest ∧
      t.dataOut = s.dataOut ∧ t.outReady = s.outReady := by
  have htake : s.dataIn.take 16 = salt := by rw [hin, ← hsalt, List.take_left]
  have hdrop : s.dataIn.drop 16 = rest := by rw [hin, ← hsalt, List.drop_left]
  exact ⟨_, exec_news_of_length_eq (by simp [hin, hsalt]), htake ▸ openSession_isFresh w _ (consume 16 s), hdrop, rfl,
    rfl⟩

/-- Settles O32: the session after RESET is fresh with the width and the salt of the one NEWS opened, so the two digests
are those of the same session. -/
theorem hashAgainAfterReset : Obligations.HashAgainAfterReset := by
  intro w salt m rest s hready hsalt hin
  rw [List.append_assoc, List.append_assoc] at hin
  obtain ⟨s1, hnews, hopen, hin1, hout1, hready1⟩ := exec_news_opens w hsalt hin
  obtain ⟨t, hhash, hteng, htin, htout, htready⟩ :=
    execAll_write_sum hopen.cfg_eq (hopen.sameOpenSession hopen).room (hready1.trans hready) hin1
  have htcfg : t.eng.cfg = true := by rw [hteng, absorbAll_cfg, hopen.cfg_eq]
  have hreset := exec_reset_of_configured htcfg
  obtain ⟨u, hhash', -, -, huout, -⟩ :=
    execAll_write_sum (s := respond .ok 0 (restartSession t)) htcfg (Nat.zero_le _) htready htin
  have hsame : (restartSession t).eng.SameOpenSession s1.eng := by
    have ⟨_, hw, hsalt1, _⟩ := hopen
    have hrestart := restartSession_isFresh htcfg
    rw [hteng, absorbAll_w, absorbAll_salt, hw, hsalt1] at hrestart
    exact hrestart.sameOpenSession hopen
  refine ⟨(s1.eng.absorbAll m).digest, u, ?_, ?_⟩
  · rw [execAll_cons hnews]
    exact (execAll_append hhash _).trans ((execAll_cons hreset _).trans hhash')
  · rw [huout, respond_eng, (hsame.absorbAll m).digest_eq, respond_dataOut, restartSession_dataOut, htout, hout1]

end Sys2Proof.Machine
end

section
/-! PROOFS. SUM's final blocks: the padding as one byte string, the snapshot's last compressions, the closed form
(42_finalization.md R190 to R198). -/

namespace Sys2Proof.Machine

/-! ### Changes of the counter and the flag between absorbed bytes -/

@[simp] theorem Engine.backOff_backOff (e : Engine) (j k : Counter) :
    (e.backOff j).backOff k = e.backOff (j + k) := by
  simp only [Engine.backOff, sub_sub]

theorem Engine.setNullt_backOff (e : Engine) (k : Counter) : e.setNullt.backOff k = (e.backOff k).setNullt := rfl

/-- Bytes that complete no block only fill the buffer, so a change of other fields may as well come before them. -/
theorem absorbAll_comm_of_lt {f : Engine → Engine} (hpush : ∀ e b, f (Engine.push e b) = (f e).push b)
    (hnx : ∀ e, (f e).nx = e.nx) {e : Engine} {bytes : List Byte} (h : e.nx.val + bytes.length < 64) :
    f (e.absorbAll bytes) = (f e).absorbAll bytes := by
  induction bytes generalizing e with
  | nil => rfl
  | cons b bytes ih =>
    rw [List.length_cons] at h
    have hb := push_nx_val e b (by omega)
    rw [absorbAll_cons, absorbAll_cons, absorb_of_lt e b (by omega), absorb_of_lt (f e) b (by rw [hnx]; omega),
      ih (by omega), hpush]

theorem absorbAll_backOff {e : Engine} {bytes : List Byte} (h : e.nx.val + bytes.length < 64) (k : Counter) :
    (e.absorbAll bytes).backOff k = (e.backOff k).absorbAll bytes :=
  absorbAll_comm_of_lt (f := (Engine.backOff · k)) (fun _ _ => rfl) (fun _ => rfl) h

theorem absorbAll_setNullt {e : Engine} {bytes : List Byte} (h : e.nx.val + bytes.length < 64) :
    (e.absorbAll bytes).setNullt = e.setNullt.absorbAll bytes :=
  absorbAll_comm_of_lt (f := Engine.setNullt) (fun _ _ => rfl) (fun _ => rfl) h

/-- The back-offs behind the domain byte and before the length field, taken before the bytes of the block. -/
theorem absorbAll_padDomain {e : Engine} {bytes : List Byte} (h : e.nx.val + bytes.length < 63) :
    (e.absorbAll bytes).padDomain.backOff 64 = (e.backOff 72).absorbAll (bytes ++ [domainByte e.w]) := by
  have hdomain : (e.absorbAll bytes).padDomain = (e.absorbAll (bytes ++ [domainByte e.w])).backOff 8 := by
    rw [Engine.padDomain, absorbAll_w, absorbAll_append, absorbAll_cons, absorbAll_nil]
  rw [hdomain, Engine.backOff_backOff, absorbAll_backOff (by simp; omega)]
  rfl

/-! ### The padding as bytes -/

/-- The bytes from the 1 bit to the end of its block, behind a buffer of `n` bytes that leaves no room for the length
field (R194). -/
def fillBytes (n : Nat) : List Byte := 0x80 :: List.replicate (63 - n) 0x00

/-- The padding behind a buffer of `n` bytes, up to the length field (R192 to R195). -/
def padBytes (w : Width) (n : Nat) : List Byte :=
  if n = 55 then [foldedByte w]
  else if n < 55 then 0x80 :: List.replicate (54 - n) 0x00 ++ [domainByte w]
  else fillBytes n ++ (List.replicate 55 0x00 ++ [domainByte w])

theorem padBytes_of_lt (w : Width) {n : Nat} (h : n < 55) :
    padBytes w n = 0x80 :: List.replicate (54 - n) 0x00 ++ [domainByte w] := by
  rw [padBytes, if_neg (by omega), if_pos h]

theorem padBytes_of_gt (w : Width) {n : Nat} (h : 55 < n) :
    padBytes w n = fillBytes n ++ (List.replicate 55 0x00 ++ [domainByte w]) := by
  rw [padBytes, if_neg (by omega), if_neg (by omega)]

theorem fillBytes_length {n : Nat} (h : n ≤ 63) : n + (fillBytes n).length = 64 := by
  rw [fillBytes, List.length_cons, List.length_replicate]
  omega

theorem padBytes_length_of_le (w : Width) {n : Nat} (h : n ≤ 55) : n + (padBytes w n).length = 56 := by
  obtain rfl | hlt := Nat.eq_or_lt_of_le h
  · rfl
  · simp [padBytes_of_lt w hlt]
    omega

/-- What SUM absorbs behind the buffer: the padding and the length field. -/
def Engine.trailer (e : Engine) : List Byte := padBytes e.w e.nx.val ++ bytesBe64 e.bitLength

/-- The second of two final blocks, which holds no message byte (R194 to R196). -/
def Engine.lengthBlock (e : Engine) : List Byte :=
  List.replicate 55 0x00 ++ [domainByte e.w] ++ bytesBe64 e.bitLength

theorem Engine.trailer_length_of_le {e : Engine} (h : e.nx.val ≤ 55) : e.nx.val + e.trailer.length = 64 := by
  rw [Engine.trailer, List.length_append, ← Nat.add_assoc, padBytes_length_of_le e.w h, bytesBe64_length]

theorem Engine.trailer_of_gt {e : Engine} (h : 55 < e.nx.val) : e.trailer = fillBytes e.nx.val ++ e.lengthBlock := by
  rw [Engine.trailer, padBytes_of_gt e.w h, Engine.lengthBlock, List.append_assoc]

theorem Engine.lengthBlock_length (e : Engine) : e.lengthBlock.length = 64 := rfl

/-! ### The snapshot before its last block -/

/-- SUM's snapshot with its counter backed off so far that the block of the buffer is compressed with the counter `L`
(R192 to R196). -/
def Engine.backedOff (e : Engine) : Engine := e.backOff (BitVec.ofNat 64 (512 - 8 * e.nx.val))

theorem Engine.backedOff_t {e : Engine} (h : e.nx.val ≤ 63) : e.backedOff.t + 512 = e.bitLength := by
  have hcancel : BitVec.ofNat 64 (512 - 8 * e.nx.val) + BitVec.ofNat 64 (8 * e.nx.val) = 512 := by
    rw [← BitVec.ofNat_add, Nat.sub_add_cancel (by omega)]
    rfl
  rw [Engine.backedOff, Engine.backOff_t, ← hcancel, ← add_assoc, sub_add_cancel, Engine.bitLength]

/-- The snapshot of the one final block: without counter if the block holds no message byte (R193). -/
def Engine.oneBlockSnapshot (e : Engine) : Engine := if e.nx.val = 0 then e.backedOff.setNullt else e.backedOff

/-- The snapshot between the two final blocks: the counter is backed off for the second, which takes none (R194). -/
def Engine.twoBlockSnapshot (e : Engine) : Engine :=
  ((e.backedOff.absorbAll (fillBytes e.nx.val)).backOff 512).setNullt

@[simp] theorem Engine.oneBlockSnapshot_w (e : Engine) : e.oneBlockSnapshot.w = e.w := by
  unfold Engine.oneBlockSnapshot; split <;> rfl

@[simp] theorem Engine.oneBlockSnapshot_h (e : Engine) : e.oneBlockSnapshot.h = e.h := by
  unfold Engine.oneBlockSnapshot; split <;> rfl

@[simp] theorem Engine.oneBlockSnapshot_salt (e : Engine) : e.oneBlockSnapshot.salt = e.salt := by
  unfold Engine.oneBlockSnapshot; split <;> rfl

@[simp] theorem Engine.oneBlockSnapshot_t (e : Engine) : e.oneBlockSnapshot.t = e.backedOff.t := by
  unfold Engine.oneBlockSnapshot; split <;> rfl

@[simp] theorem Engine.oneBlockSnapshot_nx (e : Engine) : e.oneBlockSnapshot.nx = e.nx := by
  unfold Engine.oneBlockSnapshot; split <;> rfl

@[simp] theorem Engine.oneBlockSnapshot_bufferBytes (e : Engine) :
    e.oneBlockSnapshot.bufferBytes = e.bufferBytes := by
  unfold Engine.oneBlockSnapshot; split <;> rfl

theorem Engine.oneBlockSnapshot_nullt {e : Engine} (h : e.nullt = false) :
    e.oneBlockSnapshot.nullt = decide (e.nx.val = 0) := by
  unfold Engine.oneBlockSnapshot
  split
  case isTrue hempty => simp [hempty]
  case isFalse hne => simp [hne, Engine.backedOff, h]

@[simp] theorem Engine.twoBlockSnapshot_w (e : Engine) : e.twoBlockSnapshot.w = e.w :=
  absorbAll_w e.backedOff (fillBytes e.nx.val)

@[simp] theorem Engine.twoBlockSnapshot_salt (e : Engine) : e.twoBlockSnapshot.salt = e.salt :=
  absorbAll_salt e.backedOff (fillBytes e.nx.val)

@[simp] theorem Engine.twoBlockSnapshot_nullt (e : Engine) : e.twoBlockSnapshot.nullt = true := rfl

theorem Engine.padFolded_backOff {e : Engine} (h : e.nx.val = 55) :
    e.padFolded.backOff 64 = e.oneBlockSnapshot.absorbAll [foldedByte e.w] := by
  have hsnapshot : (e.backOff 8).backOff 64 = e.oneBlockSnapshot := by
    rw [Engine.oneBlockSnapshot, if_neg (by omega), Engine.backedOff, h, Engine.backOff_backOff]
    rfl
  rw [← hsnapshot]
  exact absorbAll_backOff (e := e.backOff 8) (bytes := [foldedByte e.w]) (by simp [h]) 64

theorem Engine.padOneBlock_backOff {e : Engine} (h : e.nx.val < 55) :
    e.padOneBlock.padDomain.backOff 64 = e.oneBlockSnapshot.absorbAll (padBytes e.w e.nx.val) := by
  have hback : BitVec.ofNat 64 (440 - 8 * e.nx.val) + 72 = BitVec.ofNat 64 (512 - 8 * e.nx.val) := by
    have hsum : 512 - 8 * e.nx.val = 440 - 8 * e.nx.val + 72 := by omega
    rw [hsum, BitVec.ofNat_add]
    rfl
  rw [padBytes_of_lt e.w h, Engine.padOneBlock, Engine.oneBlockSnapshot, Engine.backedOff, ← hback]
  split
  case isTrue hempty =>
    rw [absorbAll_padDomain (by simp [hempty]), Engine.backOff_backOff]
    rfl
  case isFalse hne =>
    rw [absorbAll_padDomain (by simp; omega), Engine.backOff_backOff]
    rfl

theorem Engine.padTwoBlocks_backOff {e : Engine} (hroom : e.nx.val ≤ 63) :
    e.padTwoBlocks.padDomain.backOff 64 =
      e.twoBlockSnapshot.absorbAll (List.replicate 55 0x00 ++ [domainByte e.w]) := by
  obtain ⟨-, -, hnx⟩ := absorbAll_of_eq e.backedOff (fillBytes e.nx.val) hroom (fillBytes_length hroom)
  have hzeros : e.padTwoBlocks =
      ((e.backedOff.absorbAll (fillBytes e.nx.val)).backOff 440).setNullt.absorbAll (List.replicate 55 0x00) :=
    absorbAll_setNullt (e := (e.backedOff.absorbAll (fillBytes e.nx.val)).backOff 440) (by simp [hnx])
  have hw : e.backedOff.w = e.w := rfl
  rw [hzeros, absorbAll_padDomain (by simp [hnx]), Engine.setNullt_backOff, Engine.backOff_backOff,
    Engine.setNullt_w, Engine.backOff_w, absorbAll_w, hw]
  rfl

/-- One final block, if the length field fits behind the buffer and the 1 bit. -/
theorem Engine.finalize_of_le {e : Engine} (h : e.nx.val ≤ 55) :
    e.finalize = e.oneBlockSnapshot.absorbAll e.trailer := by
  have hpadded : e.padded.backOff 64 = e.oneBlockSnapshot.absorbAll (padBytes e.w e.nx.val) := by
    obtain hfolded | hlt := Nat.eq_or_lt_of_le h
    · rw [Engine.padded, if_pos hfolded, Engine.padFolded_backOff hfolded, padBytes, if_pos hfolded]
    · rw [Engine.padded, if_neg (by omega), if_pos hlt, Engine.padOneBlock_backOff hlt]
  rw [Engine.finalize, hpadded, Engine.trailer, absorbAll_append]

theorem Engine.finalize_of_gt {e : Engine} (h : 55 < e.nx.val) (hroom : e.nx.val ≤ 63) :
    e.finalize = e.twoBlockSnapshot.absorbAll e.lengthBlock := by
  have hpadded : e.padded.backOff 64 =
      e.twoBlockSnapshot.absorbAll (List.replicate 55 0x00 ++ [domainByte e.w]) := by
    rw [Engine.padded, if_neg (by omega), if_neg (by omega), Engine.padTwoBlocks_backOff hroom]
  rw [Engine.finalize, hpadded, Engine.lengthBlock, ← absorbAll_append]

/-! ### What the last compression leaves -/

/-- The first of two final blocks is compressed with the counter `L`, which the snapshot then gives up again. -/
theorem Engine.twoBlockSnapshot_fields {e : Engine} (hroom : e.nx.val ≤ 63) :
    e.twoBlockSnapshot.h =
        compress e.h e.salt e.bitLength e.nullt (blockOfBytes (e.bufferBytes ++ fillBytes e.nx.val)) ∧
      e.twoBlockSnapshot.t + 512 = e.bitLength ∧ e.twoBlockSnapshot.nx = 0 := by
  obtain ⟨hh, ht, hnx⟩ := absorbAll_of_eq e.backedOff (fillBytes e.nx.val) hroom (fillBytes_length hroom)
  rw [Engine.backedOff_t hroom] at hh ht
  refine ⟨hh, ?_, hnx⟩
  rw [Engine.twoBlockSnapshot, Engine.setNullt_t, Engine.backOff_t, ht, sub_add_cancel]

/-- Settles O28: the snapshot's last block is compressed with the counter `L` and empties the buffer. -/
theorem sumCounterReturnsToLength : Obligations.SumCounterReturnsToLength := by
  intro e hroom
  by_cases hle : e.nx.val ≤ 55
  · obtain ⟨-, ht, hnx⟩ := absorbAll_of_eq e.oneBlockSnapshot e.trailer (by simpa using hroom)
      (by simpa using Engine.trailer_length_of_le hle)
    rw [Engine.finalize_of_le hle]
    refine ⟨?_, hnx, by simp, by simp⟩
    rw [ht, Engine.oneBlockSnapshot_t, Engine.backedOff_t hroom, Engine.bitLength]
  · obtain ⟨-, hsnapshot, hempty⟩ := Engine.twoBlockSnapshot_fields hroom
    obtain ⟨-, ht, hnx⟩ := absorbAll_of_eq e.twoBlockSnapshot e.lengthBlock (by simp [hempty])
      (by simp [hempty, Engine.lengthBlock_length])
    rw [Engine.finalize_of_gt (by omega) hroom]
    refine ⟨?_, hnx, by simp, by simp⟩
    rw [ht, hsnapshot, Engine.bitLength]

/-! ### The closed form -/

theorem Engine.closedChain_of_le {e : Engine} (h : e.nx.val ≤ 55) :
    e.closedChain =
      compress e.h e.salt e.bitLength (decide (e.nx.val = 0)) (blockOfBytes (e.bufferBytes ++ e.trailer)) := by
  unfold Engine.closedChain
  dsimp only
  split_ifs with hempty hshort hfolded
  · have hbuffer : e.bufferBytes = [] := bufferBytes_of_nx_eq_zero (Fin.ext hempty)
    simp [hempty, hbuffer, Engine.trailer, padBytes]
  · simp [hempty, Engine.trailer, padBytes_of_lt e.w (Nat.lt_succ_of_le hshort)]
  · simp [hfolded, Engine.trailer, padBytes]
  · omega

theorem Engine.closedChain_of_gt {e : Engine} (h : 55 < e.nx.val) :
    e.closedChain =
      compress (compress e.h e.salt e.bitLength false (blockOfBytes (e.bufferBytes ++ fillBytes e.nx.val))) e.salt
        e.bitLength true (blockOfBytes e.lengthBlock) := by
  unfold Engine.closedChain
  dsimp only
  rw [if_neg (by omega), if_neg (by omega), if_neg (by omega)]
  rfl

/-- The chain value of SUM's snapshot is the closed form. -/
theorem Engine.finalize_h {e : Engine} (hroom : e.nx.val ≤ 63) (hnullt : e.nullt = false) :
    e.finalize.h = e.closedChain := by
  by_cases hle : e.nx.val ≤ 55
  · obtain ⟨hh, -⟩ := absorbAll_of_eq e.oneBlockSnapshot e.trailer (by simpa using hroom)
      (by simpa using Engine.trailer_length_of_le hle)
    rw [Engine.finalize_of_le hle, hh, Engine.closedChain_of_le hle, Engine.oneBlockSnapshot_h,
      Engine.oneBlockSnapshot_salt, Engine.oneBlockSnapshot_t, Engine.backedOff_t hroom,
      Engine.oneBlockSnapshot_nullt hnullt, Engine.oneBlockSnapshot_bufferBytes]
  · obtain ⟨hfirst, hsnapshot, hempty⟩ := Engine.twoBlockSnapshot_fields hroom
    obtain ⟨hh, -⟩ := absorbAll_of_eq e.twoBlockSnapshot e.lengthBlock (by simp [hempty])
      (by simp [hempty, Engine.lengthBlock_length])
    rw [Engine.finalize_of_gt (by omega) hroom, hh, Engine.closedChain_of_gt (by omega), hfirst, hsnapshot, hnullt,
      Engine.twoBlockSnapshot_salt, Engine.twoBlockSnapshot_nullt, bufferBytes_of_nx_eq_zero hempty, List.nil_append]

theorem Engine.digest_eq_closedChain {e : Engine} (hroom : e.nx.val ≤ 63) (hnullt : e.nullt = false) :
    e.digest = digestOf e.w e.closedChain := by
  rw [Engine.digest, Engine.finalize_h hroom hnullt]

/-- Settles O27: SUM emits the digest of its snapshot, whose chain value is the closed form. -/
theorem sumClosedForm : Obligations.SumClosedForm := by
  intro s hinv hcfg hready
  obtain ⟨hroom, hnullt, -⟩ := hinv hcfg
  rw [← Engine.digest_eq_closedChain hroom hnullt]
  exact ⟨_, exec_sum_of_configured hcfg hroom hready, ⟨rfl, rfl, rfl, rfl, rfl⟩, rfl⟩

end Sys2Proof.Machine
end

section
/-! PROOFS. The digest as bytes, and SUM between WRITEs: it adds the digest of the bytes so far to data-out and leaves
the session as it was (42_finalization.md R190, R197, R200). -/

namespace Sys2Proof.Machine

/-! ### The digest -/

theorem chain_toList (h : Chain) : h.toList = [h[0], h[1], h[2], h[3], h[4], h[5], h[6], h[7]] := by
  apply List.ext_getElem
  · simp
  · intro i hi _
    have hi : i < 8 := by simpa using hi
    interval_cases i <;> rfl

theorem digestOf_w256 (h : Chain) : digestOf .w256 h =
    bytesBe32 h[0] ++ bytesBe32 h[1] ++ bytesBe32 h[2] ++ bytesBe32 h[3] ++
    bytesBe32 h[4] ++ bytesBe32 h[5] ++ bytesBe32 h[6] ++ bytesBe32 h[7] := by
  simp [digestOf, digestWords, Width.bits, chain_toList]

theorem digestOf_w224 (h : Chain) : digestOf .w224 h =
    bytesBe32 h[0] ++ bytesBe32 h[1] ++ bytesBe32 h[2] ++ bytesBe32 h[3] ++
    bytesBe32 h[4] ++ bytesBe32 h[5] ++ bytesBe32 h[6] := by
  simp [digestOf, digestWords, Width.bits, chain_toList]

theorem digestOf_head? (w : Width) (h : Chain) : (digestOf w h).head? = some (h[0].extractLsb' 24 8) := by
  cases w with
  | w224 => rw [digestOf_w224]; rfl
  | w256 => rw [digestOf_w256]; rfl

/-- Settles O29: the words in order for either width, and what SUM emits. -/
theorem digestIsBigEndianWords : Obligations.DigestIsBigEndianWords := by
  refine ⟨digestOf_w256, digestOf_w224, fun w h => ⟨?_, digestOf_head? w h⟩, fun s t hcfg hready hroom hsum => ?_⟩
  · rw [digestOf_length]
    cases w <;> rfl
  · rw [exec_sum_of_configured hcfg hroom hready] at hsum
    obtain rfl := Host.Outcome.next.inj hsum
    rfl

/-! ### SUM between WRITEs -/

theorem exec_sum_eng {s t : State} (h : exec .sum s = .next t) : t.eng = s.eng := by
  obtain ⟨heng, -⟩ := readOnlyCommandsFrame .sum s t (.inl rfl) h
  exact heng

/-- The first SUM leaves the session the first WRITE made, so the second WRITE continues it. -/
theorem execAll_write_sum_write_sum {a b rest : List Byte} {s : State} (hcfg : s.eng.cfg = true)
    (hroom : s.eng.nx.val ≤ 63) (hready : s.outReady = true) (hin : s.dataIn = a ++ (b ++ rest)) :
    ∃ t : State, execAll [.write a.length, .sum, .write b.length, .sum] s = .next t ∧
      t.dataOut = s.dataOut ++ (s.eng.absorbAll a).digest ++ (s.eng.absorbAll (a ++ b)).digest := by
  obtain ⟨t, hrun, hteng, htin, htout, htready⟩ := execAll_write_sum hcfg hroom hready hin
  obtain ⟨u, hrun', -, -, huout, -⟩ := execAll_write_sum (s := t) (by rw [hteng, absorbAll_cfg, hcfg])
    (by rw [hteng]; exact absorbAll_room a hroom) htready htin
  exact ⟨u, (execAll_append hrun _).trans hrun', by rw [huout, htout, hteng, ← absorbAll_append]⟩

theorem execAll_sum_sum {s : State} (hcfg : s.eng.cfg = true) (hroom : s.eng.nx.val ≤ 63)
    (hready : s.outReady = true) :
    ∃ t : State, execAll [.sum, .sum] s = .next t ∧ t.dataOut = s.dataOut ++ s.eng.digest ++ s.eng.digest :=
  ⟨_, (execAll_cons (exec_sum_of_configured hcfg hroom hready) _).trans
    (execAll_cons (exec_sum_of_configured (s := respond .ok 0 (emit s.eng.digest s)) hcfg hroom hready) []), rfl⟩

/-- Settles O30: the engine after SUM is the engine before it, and a digest is a function of the engine. -/
theorem sumIsNonDestructive : Obligations.SumIsNonDestructive := by
  refine ⟨fun _ _ => exec_sum_eng, fun a b rest s hcfg hroom hready hin => ?_, fun s hcfg hroom hready => ?_⟩
  · obtain ⟨t, hrun, htout⟩ := execAll_write_sum_write_sum hcfg hroom hready
      (hin.trans (List.append_assoc a b rest))
    obtain ⟨u, hrun', -, -, huout, -⟩ := execAll_write_sum hcfg hroom hready hin
    rw [List.length_append] at hrun'
    exact ⟨_, _, t, u, hrun, htout, hrun', huout⟩
  · obtain ⟨t, hrun, htout⟩ := execAll_sum_sum hcfg hroom hready
    exact ⟨_, t, hrun, htout⟩

end Sys2Proof.Machine
end

section
/-! PROOFS. A session's digest is that of its padded message: the padded bits are the bits of the message and of the
bytes SUM absorbs behind it, and the blocks agree one by one (42_finalization.md R199). -/

namespace Sys2Proof.Machine

/-! ### The padded message as bytes -/

/-- A byte with the 1 bit, zero bytes and the domain byte. -/
theorem bitsOfBytes_zeros_domain (w : Width) (k : Nat) :
    bitsOfBytes (0x80 :: List.replicate k 0x00 ++ [domainByte w]) =
      true :: List.replicate (8 * k + 14) false ++ [domainBit w] := by
  have hone : bitsOfByte 0x80 = true :: List.replicate 7 false := by decide
  have hdomain : bitsOfBytes [domainByte w] = List.replicate 7 false ++ [domainBit w] := by cases w <;> decide
  have hcount : 8 * k + 14 = 7 + 8 * k + 7 := by omega
  rw [bitsOfBytes_append, bitsOfBytes_cons, hone, bitsOfBytes_zeros, hdomain, hcount, List.replicate_add,
    List.replicate_add]
  simp only [List.cons_append, List.append_assoc]

/-- The padding bytes behind a message of `len` bytes are the 1 bit, the zero bits and the domain bit of R199. -/
theorem bitsOfBytes_padBytes (w : Width) (len : Nat) :
    bitsOfBytes (padBytes w (len % 64)) =
      true :: List.replicate (zeroPadding (8 * len)) false ++ [domainBit w] := by
  rw [zeroPadding]
  obtain hlt | heq | hgt := Nat.lt_trichotomy (len % 64) 55
  · have hcount : (958 - 8 * len % 512) % 512 = 8 * (54 - len % 64) + 14 := by omega
    rw [padBytes_of_lt w hlt, bitsOfBytes_zeros_domain, hcount]
  · have hcount : (958 - 8 * len % 512) % 512 = 6 := by omega
    rw [heq, hcount]
    cases w <;> decide
  · have hcount : (958 - 8 * len % 512) % 512 = 8 * (63 - len % 64 + 55) + 14 := by omega
    rw [padBytes_of_gt w hgt, hcount, ← bitsOfBytes_zeros_domain, fillBytes, List.replicate_add]
    simp only [List.cons_append, List.append_assoc]

theorem paddedBits_eq_bitsOfBytes (w : Width) (m : List Byte) :
    paddedBits w m =
      bitsOfBytes (m ++ (padBytes w (m.length % 64) ++ bytesBe64 (BitVec.ofNat 64 (8 * m.length)))) := by
  rw [bitsOfBytes_append, bitsOfBytes_append, bitsOfBytes_padBytes, bitsOfBytes_bytesBe64, paddedBits]
  simp only [List.append_assoc]

/-! ### The blocks of the padded message -/

/-- A block before the last message bytes is full, so its counter is not capped. -/
theorem paddedCompress_of_full {len k : Nat} (hk : 64 * (k + 1) ≤ len) (salt : Salt) (bytes : List Byte) (h : Chain) :
    paddedCompress salt (bitsOfBytes bytes) (8 * len) h k =
      compress h salt (BitVec.ofNat 64 (512 * (k + 1))) false (blockOfBytes ((bytes.drop (64 * k)).take 64)) := by
  rw [paddedCompress, if_pos (by omega), Nat.min_eq_left (by omega), paddedBlock_bitsOfBytes]

theorem paddedCompress_of_ge {len k : Nat} (hk : len ≤ 64 * k) (t : Counter) (salt : Salt) (bytes : List Byte)
    (h : Chain) : paddedCompress salt (bitsOfBytes bytes) (8 * len) h k =
      compress h salt t true (blockOfBytes ((bytes.drop (64 * k)).take 64)) := by
  rw [paddedCompress, if_neg (by omega), paddedBlock_bitsOfBytes,
    compress_congr_injectedWords ((injectedWords_true 0).trans (injectedWords_true t).symm)]

/-- The block the message ends in is compressed with the counter `L`, or without counter if the message ends before
it. -/
theorem paddedCompress_of_end (len : Nat) (salt : Salt) (bytes : List Byte) (h : Chain) :
    paddedCompress salt (bitsOfBytes bytes) (8 * len) h (len / 64) =
      compress h salt (BitVec.ofNat 64 (8 * len)) (decide (len % 64 = 0))
        (blockOfBytes ((bytes.drop (64 * (len / 64))).take 64)) := by
  by_cases hempty : len % 64 = 0
  · rw [paddedCompress_of_ge (by omega), decide_eq_true hempty]
  · rw [paddedCompress, if_pos (by omega), Nat.min_eq_right (by omega), paddedBlock_bitsOfBytes,
      decide_eq_false hempty]

/-- The chain value after the first `k` blocks of the padded message of `len` bytes (R199). -/
def paddedChain (w : Width) (salt : Salt) (bytes : List Byte) (len k : Nat) : Chain :=
  (List.range k).foldl (paddedCompress salt (bitsOfBytes bytes) (8 * len)) (iv w)

theorem paddedChain_succ (w : Width) (salt : Salt) (bytes : List Byte) (len k : Nat) :
    paddedChain w salt bytes len (k + 1) =
      paddedCompress salt (bitsOfBytes bytes) (8 * len) (paddedChain w salt bytes len k) k := by
  rw [paddedChain, List.range_succ, List.foldl_append]
  rfl

theorem blakeDigest_eq_paddedChain {w : Width} {m bytes : List Byte} (hbits : paddedBits w m = bitsOfBytes bytes)
    (salt : Salt) :
    blakeDigest w salt m = digestOf w (paddedChain w salt bytes m.length (bytes.length / 64)) := by
  have hcount : 8 * bytes.length / 512 = bytes.length / 64 := by omega
  rw [blakeDigest, hbits, bitsOfBytes_length, hcount, paddedChain]

/-! ### The session of a message -/

/-- What absorbing the message `m` in a fresh session leaves. -/
structure Engine.HasAbsorbed (e : Engine) (w : Width) (salt : Salt) (m : List Byte) : Prop where
  w_eq : e.w = w
  salt_eq : e.salt = salt
  nullt_eq : e.nullt = false
  nx_eq : e.nx.val = m.length % 64
  bitLength_eq : e.bitLength = BitVec.ofNat 64 (8 * m.length)
  bufferBytes_eq : e.bufferBytes = m.drop (64 * (m.length / 64))
  h_eq : ∀ tail, e.h = paddedChain w salt (m ++ tail) m.length (m.length / 64)

theorem chainAfter_eq_paddedChain {e : Engine} {w : Width} {salt : Salt} (h : e.IsFresh w salt) (m tail : List Byte) :
    e.chainAfter m (m.length / 64) = paddedChain w salt (m ++ tail) m.length (m.length / 64) := by
  obtain ⟨-, -, hsalt, hh, ht, -, hnullt⟩ := h
  rw [Engine.chainAfter, paddedChain, hh]
  refine List.foldl_ext _ _ _ fun h' k hk => ?_
  have hlt := List.mem_range.mp hk
  have hfull : 64 * (k + 1) ≤ m.length := by omega
  rw [paddedCompress_of_full hfull, List.drop_append_of_le_length (by omega),
    List.take_append_of_le_length (by rw [List.length_drop]; omega), hsalt, ht, hnullt, zero_add]

theorem Engine.IsFresh.absorbAll_hasAbsorbed {e : Engine} {w : Width} {salt : Salt} (h : e.IsFresh w salt)
    (m : List Byte) : (e.absorbAll m).HasAbsorbed w salt m := by
  have hchain := chainAfter_eq_paddedChain h m
  obtain ⟨-, hw, hsalt, -, ht, hnx, hnullt⟩ := h
  have hroom : e.nx.val ≤ 63 := by simp [hnx]
  have hblocks := absorbAll_absorbedBlocks (k := m.length / 64) (data := m) hroom (by simp [hnx])
  rw [bufferBytes_of_nx_eq_zero hnx, List.nil_append] at hblocks
  have hnx' : (e.absorbAll m).nx.val = m.length % 64 := by simpa [hnx] using absorbAll_nx_val m hroom
  refine ⟨by simp [hw], by simp [hsalt], by simp [hnullt], hnx', ?_, hblocks.bufferBytes,
    fun tail => hblocks.h.trans (hchain tail)⟩
  have hlen : 8 * m.length = 512 * (m.length / 64) + 8 * (m.length % 64) := by omega
  rw [Engine.bitLength, hblocks.t, ht, zero_add, hnx', ← BitVec.ofNat_add, ← hlen]

/-- The bits of the padded message are those of the message and of what SUM absorbs behind it. -/
theorem Engine.HasAbsorbed.paddedBits_eq {e : Engine} {w : Width} {salt : Salt} {m : List Byte}
    (h : e.HasAbsorbed w salt m) : paddedBits w m = bitsOfBytes (m ++ e.trailer) := by
  rw [paddedBits_eq_bitsOfBytes, Engine.trailer, h.w_eq, h.nx_eq, h.bitLength_eq]

theorem Engine.HasAbsorbed.drop_eq {e : Engine} {w : Width} {salt : Salt} {m : List Byte}
    (h : e.HasAbsorbed w salt m) (tail : List Byte) :
    (m ++ tail).drop (64 * (m.length / 64)) = e.bufferBytes ++ tail := by
  rw [List.drop_append_of_le_length (by omega), h.bufferBytes_eq]

theorem Engine.HasAbsorbed.closedChain_eq {e : Engine} {w : Width} {salt : Salt} {m : List Byte}
    (h : e.HasAbsorbed w salt m) :
    e.closedChain = paddedChain w salt (m ++ e.trailer) m.length ((m ++ e.trailer).length / 64) := by
  have hnx := h.nx_eq
  have hbuffer := bufferBytes_length e (by omega)
  by_cases hle : e.nx.val ≤ 55
  · have htrailer := Engine.trailer_length_of_le hle
    have hcount : (m ++ e.trailer).length / 64 = m.length / 64 + 1 := by
      rw [List.length_append]
      omega
    rw [hcount, paddedChain_succ, paddedCompress_of_end, ← h.h_eq, h.drop_eq,
      List.take_of_length_le (by rw [List.length_append]; omega), Engine.closedChain_of_le hle, h.salt_eq,
      h.bitLength_eq, h.nx_eq]
  · have hfill := fillBytes_length (n := e.nx.val) (by omega)
    have hlast := e.lengthBlock_length
    have htrailer := Engine.trailer_of_gt (e := e) (by omega)
    have hcount : (m ++ e.trailer).length / 64 = m.length / 64 + 1 + 1 := by
      rw [htrailer, List.length_append, List.length_append]
      omega
    have hblock : (m ++ e.trailer).drop (64 * (m.length / 64)) =
        (e.bufferBytes ++ fillBytes e.nx.val) ++ e.lengthBlock := by
      rw [h.drop_eq, htrailer, List.append_assoc]
    have hfirst : (e.bufferBytes ++ fillBytes e.nx.val).length = 64 := by
      rw [List.length_append]
      omega
    have hsecond : (m ++ e.trailer).drop (64 * (m.length / 64 + 1)) = e.lengthBlock := by
      rw [Nat.mul_succ, ← List.drop_drop, hblock, List.drop_left' hfirst]
    rw [hcount, paddedChain_succ, paddedChain_succ, paddedCompress_of_end, ← h.h_eq, hblock, List.take_left' hfirst,
      paddedCompress_of_ge (by omega) e.bitLength, hsecond, List.take_of_length_le hlast.le,
      Engine.closedChain_of_gt (by omega), h.salt_eq, h.bitLength_eq, decide_eq_false (by omega)]

theorem Engine.HasAbsorbed.digest_eq {e : Engine} {w : Width} {salt : Salt} {m : List Byte}
    (h : e.HasAbsorbed w salt m) : e.digest = blakeDigest w salt m := by
  have hroom : e.nx.val ≤ 63 := by
    rw [h.nx_eq]
    omega
  rw [Engine.digest_eq_closedChain hroom h.nullt_eq, h.closedChain_eq, h.w_eq,
    blakeDigest_eq_paddedChain h.paddedBits_eq]

/-! ### The session's digest -/

theorem execAll_write_sum_of_isFresh {m rest : List Byte} {w : Width} {salt : Salt} {s : State}
    (hfresh : s.eng.IsFresh w salt) (hready : s.outReady = true) (hin : s.dataIn = m ++ rest) :
    ∃ t : State, execAll [.write m.length, .sum] s = .next t ∧ t.dataOut = s.dataOut ++ blakeDigest w salt m := by
  obtain ⟨t, hrun, -, -, htout, -⟩ :=
    execAll_write_sum hfresh.cfg_eq (hfresh.sameOpenSession hfresh).room hready hin
  exact ⟨t, hrun, by rw [htout, (hfresh.absorbAll_hasAbsorbed m).digest_eq]⟩

/-- Settles O31: NEW and NEWS open a fresh session, whose digest is that of its message. The model's arithmetic is
modulo 2^64 on both sides, so the premise on the length is not needed. -/
theorem sessionComputesBlakeDigest : Obligations.SessionComputesBlakeDigest := by
  refine ⟨fun w m rest s _ hready hin => ?_, fun w salt m rest s _ hready hsalt hin => ?_⟩
  · have hnew : exec (.new w) s = .next (respond .ok 0 (openSession w (Vector.replicate 4 0) s)) := rfl
    obtain ⟨t, hrun, htout⟩ := execAll_write_sum_of_isFresh
      (s := respond .ok 0 (openSession w (Vector.replicate 4 0) s)) (openSession_isFresh w _ s) hready hin
    exact ⟨t, (execAll_cons hnew _).trans hrun, htout⟩
  · rw [List.append_assoc] at hin
    obtain ⟨s1, hnews, hfresh, hin1, hout1, hready1⟩ := exec_news_opens w hsalt hin
    obtain ⟨t, hrun, htout⟩ := execAll_write_sum_of_isFresh hfresh (hready1.trans hready) hin1
    exact ⟨t, (execAll_cons hnews _).trans hrun, by rw [htout, hout1]⟩

end Sys2Proof.Machine
end

section
/-! PROOFS. The status of every response, said once, and what taking a fault leaves (60_exceptions.md R221 to R226);
the machine's stops under the invariant (60_exceptions.md R223, 93_implementation_defined.md U6). -/

namespace Sys2Proof.Machine

/-! ### The status of a command -/

/-- The status with which a command responds while the configured flag is `cfg` (R224). No command has two causes of a
fault, so R225's order shows in `wordStatus` only. -/
def commandStatus (cfg : Bool) : Instr → Status
  | .new _ | .blocksize => .ok
  | .news _ len => if len = 16 then .ok else .invalidSaltLength
  | .write _ | .sum | .reset | .size => if cfg then .ok else .unconfigured

theorem commandStatus_ne_illegalCommand (cfg : Bool) (i : Instr) : commandStatus cfg i ≠ .illegalCommand := by
  cases i with
  | new _ | blocksize => nofun
  | news w len => by_cases hlen : len = 16 <;> simp [commandStatus, hlen]
  | write _ | sum | reset | size => cases cfg <;> nofun

theorem commandStatus_eq_unconfigured_iff {cfg : Bool} {i : Instr} :
    commandStatus cfg i = .unconfigured ↔ needsSession i = true ∧ cfg = false := by
  cases i with
  | new _ | blocksize => simp [commandStatus, needsSession]
  | news w len => by_cases hlen : len = 16 <;> simp [commandStatus, needsSession, hlen]
  | write _ | sum | reset | size => cases cfg <;> simp [commandStatus, needsSession]

theorem commandStatus_eq_invalidSaltLength_iff {cfg : Bool} {i : Instr} :
    commandStatus cfg i = .invalidSaltLength ↔ ∃ w len, i = .news w len ∧ len ≠ 16 := by
  cases i with
  | new _ | blocksize => simp [commandStatus]
  | news w len => by_cases hlen : len = 16 <;> simp [commandStatus, hlen]
  | write _ | sum | reset | size => cases cfg <;> simp [commandStatus]

/-- How `exec i s = .next t` answers, by the command's status. -/
inductive StatusAnswer (i : Instr) (s t : State) : Prop
  /-- The command waits for data-in bytes or for the host to accept output (U7). -/
  | waited (hst : t = s)
  /-- The command responds with OK. -/
  | completed (value : Word) (hstatus : commandStatus s.eng.cfg i = .ok) (hresp : t.resps = s.resps ++ [⟨.ok, value⟩])
  /-- The command takes its data bytes and raises its status (R226). -/
  | faulted (st : Status) (hstatus : commandStatus s.eng.cfg i = st) (hfault : t = raise st (consume i.dataLen s))

theorem exec_statusAnswer {i : Instr} {s t : State} (h : exec i s = .next t) : StatusAnswer i s t := by
  cases i with
  | new w =>
    obtain rfl := execNew_next h
    exact .completed _ rfl rfl
  | news w len =>
    obtain ⟨-, hst⟩ | ⟨-, hne, ht⟩ | ⟨-, heq, rfl⟩ := execNews_next h
    · exact .waited hst
    · exact .faulted _ (commandStatus_eq_invalidSaltLength_iff.mpr ⟨w, len, rfl, hne⟩) ht
    · exact .completed _ (if_pos heq) rfl
  | write len =>
    obtain ⟨-, hst⟩ | ⟨-, hcfg, ht⟩ | ⟨-, hcfg, -, rfl⟩ := execWrite_next h
    · exact .waited hst
    · exact .faulted _ (commandStatus_eq_unconfigured_iff.mpr ⟨rfl, hcfg⟩) ht
    · exact .completed _ (if_pos hcfg) rfl
  | sum =>
    obtain ⟨hcfg, ht⟩ | ⟨-, -, hst⟩ | ⟨hcfg, -, -, rfl⟩ := execSum_next h
    · exact .faulted _ (commandStatus_eq_unconfigured_iff.mpr ⟨rfl, hcfg⟩) ht
    · exact .waited hst
    · exact .completed _ (if_pos hcfg) rfl
  | reset =>
    obtain ⟨hcfg, ht⟩ | ⟨hcfg, rfl⟩ := execReset_next h
    · exact .faulted _ (commandStatus_eq_unconfigured_iff.mpr ⟨rfl, hcfg⟩) ht
    · exact .completed _ (if_pos hcfg) rfl
  | blocksize =>
    obtain rfl := execBlocksize_next h
    exact .completed _ rfl rfl
  | size =>
    obtain ⟨hcfg, ht⟩ | ⟨hcfg, rfl⟩ := execSize_next h
    · exact .faulted _ (commandStatus_eq_unconfigured_iff.mpr ⟨rfl, hcfg⟩) ht
    · exact .completed _ (if_pos hcfg) rfl

/-- The answer in terms of the response that was added: one that waits adds none. -/
theorem StatusAnswer.status {i : Instr} {s t : State} {r : Response} (h : StatusAnswer i s t)
    (hr : t.resps = s.resps ++ [r]) :
    r.status = commandStatus s.eng.cfg i ∧ (r.status ≠ .ok → t = raise r.status (consume i.dataLen s)) := by
  cases h with
  | waited hst => simp [hst] at hr
  | completed value hstatus hresp =>
    obtain rfl : r = ⟨.ok, value⟩ := by simpa [hresp, eq_comm] using hr
    exact ⟨hstatus.symm, absurd rfl⟩
  | faulted st hstatus hfault =>
    obtain rfl : r = ⟨st, 0⟩ := by simpa [hfault, eq_comm] using hr
    exact ⟨hstatus.symm, fun _ => hfault⟩

/-! ### InvalidSaltLength and Unconfigured -/

/-- Settles O15: a faulted NEWS leaves the bytes after its own on data-in, and a NEWS of 16 takes them whatever the
engine. -/
theorem invalidSaltLengthFault : Obligations.InvalidSaltLengthFault := by
  refine ⟨fun w len s hne hlen => exec_news_of_length_ne hne hlen, fun i s t r h hr hstatus => ?_,
    fun w w' len s t hne hlen h => ?_⟩
  · obtain ⟨hcommand, -⟩ := (exec_statusAnswer h).status hr
    exact commandStatus_eq_invalidSaltLength_iff.mp (hcommand.symm.trans hstatus)
  · rw [exec_news_of_length_ne hne (by omega)] at h
    obtain rfl := Host.Outcome.next.inj h
    have hretry : 16 ≤ (raise .invalidSaltLength (consume len s)).dataIn.length := by
      rw [raise_dataIn, consume_dataIn, List.length_drop]
      omega
    exact ⟨_, exec_news_of_length_eq hretry, responded_of_silent _ _⟩

theorem exec_of_unconfigured {i : Instr} {s : State} (hi : needsSession i = true) (hcfg : s.eng.cfg = false)
    (hlen : i.dataLen ≤ s.dataIn.length) : exec i s = .next (raise .unconfigured (consume i.dataLen s)) := by
  cases i with
  | new _ | news _ _ | blocksize => cases hi
  | write len => exact exec_write_of_unconfigured hcfg hlen
  | sum => exact whenConfigured_false hcfg
  | reset => exact exec_reset_of_unconfigured hcfg
  | size => exact exec_size_of_unconfigured hcfg

/-- Settles O35, by the commands that need a session and by the status of every response. -/
theorem unconfiguredFault : Obligations.UnconfiguredFault := by
  refine ⟨fun i s => exec_of_unconfigured, fun i s t r h hr hstatus => ?_⟩
  obtain ⟨hcommand, -⟩ := (exec_statusAnswer h).status hr
  exact commandStatus_eq_unconfigured_iff.mp (hcommand.symm.trans hstatus)

/-! ### The status of a command word -/

/-- The status with which a step responds to a command word: the decoder's verdict comes first (R225). -/
def wordStatus (cfg : Bool) (word : Word) : Status :=
  match decode word with
  | .ok i => commandStatus cfg i
  | .error _ => .illegalCommand

theorem wordStatus_of_ok {word : Word} {i : Instr} (cfg : Bool) (h : decode word = .ok i) :
    wordStatus cfg word = commandStatus cfg i := by
  rw [wordStatus, h]

theorem wordStatus_of_error {word : Word} {e : IllegalWord} (cfg : Bool) (h : decode word = .error e) :
    wordStatus cfg word = .illegalCommand := by
  rw [wordStatus, h]

theorem wordStatus_eq_illegalCommand_iff {cfg : Bool} {word : Word} :
    wordStatus cfg word = .illegalCommand ↔ ∃ e, decode word = .error e := by
  cases h : decode word with
  | ok i => simp [wordStatus_of_ok cfg h, commandStatus_ne_illegalCommand]
  | error e => simp [wordStatus_of_error cfg h]

theorem wordStatus_eq_unconfigured_iff {cfg : Bool} {word : Word} :
    wordStatus cfg word = .unconfigured ↔ ∃ i, decode word = .ok i ∧ needsSession i = true ∧ cfg = false := by
  cases h : decode word with
  | ok i => simp [wordStatus_of_ok cfg h, commandStatus_eq_unconfigured_iff]
  | error e => simp [wordStatus_of_error cfg h]

theorem wordStatus_eq_invalidSaltLength_iff {cfg : Bool} {word : Word} :
    wordStatus cfg word = .invalidSaltLength ↔ ∃ w len, decode word = .ok (.news w len) ∧ len ≠ 16 := by
  cases h : decode word with
  | ok i => simp [wordStatus_of_ok cfg h, commandStatus_eq_invalidSaltLength_iff]
  | error e => simp [wordStatus_of_error cfg h]

/-- A step that responds answers the status of the word on the port, and with any but OK it takes the bytes that word
announces and raises the status, no more (R226). -/
theorem step_status {s t : State} {r : Response} (h : step s = .next t) (hr : t.resps = s.resps ++ [r]) :
    ∃ (word : Word) (rest : List Word), s.cmdIn = word :: rest ∧ r.status = wordStatus s.eng.cfg word ∧
      (r.status ≠ .ok → t = raise r.status (consume (announced word) s)) := by
  obtain ⟨-, -, rfl⟩ | ⟨word, rest, hcmd, ⟨e, hdec, rfl⟩ | ⟨i, hdec, hexec⟩⟩ := step_next h
  · simp at hr
  · obtain rfl : r = ⟨.illegalCommand, 0⟩ := by simpa [eq_comm] using hr
    refine ⟨word, rest, hcmd, (wordStatus_of_error _ hdec).symm, fun _ => ?_⟩
    rw [announced_of_error hdec]
    rfl
  · refine ⟨word, rest, hcmd, ?_⟩
    rw [wordStatus_of_ok _ hdec, announced_of_ok hdec]
    exact (exec_statusAnswer hexec).status hr

/-- Settles O36: each cause is one value of the word's status. -/
theorem faultCausesTable : Obligations.FaultCausesTable := by
  intro s t r h hr
  obtain ⟨word, rest, hcmd, hstatus, hfault⟩ := step_status h hr
  refine ⟨word, rest, hcmd, ?_, ?_, ?_, fun hne => ?_⟩
  · rw [hstatus, wordStatus_eq_illegalCommand_iff]
  · rw [hstatus, wordStatus_eq_unconfigured_iff]
  · rw [hstatus, wordStatus_eq_invalidSaltLength_iff]
  · rw [hfault hne]
    exact ⟨rfl, rfl⟩

/-- Settles O37: the next state is that of `raise`, whose response has the value 0. -/
theorem faultChangesNothing : Obligations.FaultChangesNothing := by
  intro s t r h hr hne
  obtain ⟨word, rest, hcmd, -, hfault⟩ := step_status h hr
  have ht := hfault hne
  have hresp : r = ⟨r.status, 0⟩ := by simpa [ht, eq_comm] using hr
  refine ⟨by rw [hresp], ?_⟩
  rw [hcmd, List.headD_cons, ← hcmd, hresp]
  exact ht

/-! ### Stops under the invariant -/

theorem step_of_no_command {s : State} (hcmd : s.cmdIn = []) : step s = noCommand s := by
  rw [step, hcmd]

theorem noCommand_of_dataIn_eq_nil {s : State} (hin : s.dataIn = []) : noCommand s = .next s := by
  rw [noCommand, hin]

theorem noCommand_of_dataIn_ne_nil {s : State} (hin : s.dataIn ≠ []) : noCommand s = .refused .surplusData := by
  obtain ⟨byte, rest, hcons⟩ := List.exists_cons_of_ne_nil hin
  rw [noCommand, hcons]

/-- A step of a machine with the invariant has a next state, but for bytes with no command (U6). -/
theorem step_isNext_or_surplusData {s : State} (hs : s.Inv) :
    (∃ t, step s = .next t) ∨ (step s = .refused .surplusData ∧ s.cmdIn = [] ∧ s.dataIn ≠ []) := by
  cases hcmd : s.cmdIn with
  | cons word rest => exact .inl (step_isNext_of_inv hs hcmd)
  | nil =>
    rw [step_of_no_command hcmd]
    by_cases hin : s.dataIn = []
    · exact .inl ⟨s, noCommand_of_dataIn_eq_nil hin⟩
    · exact .inr ⟨noCommand_of_dataIn_ne_nil hin, rfl, hin⟩

/-- Settles O42, by the two outcomes a step then has. -/
theorem invariantRulesOutStops : Obligations.InvariantRulesOutStops := by
  intro s hs
  obtain ⟨t, hstep⟩ | ⟨hstep, hcmd, hin⟩ := step_isNext_or_surplusData hs
  · rw [hstep]
    exact ⟨nofun, nofun⟩
  · rw [hstep]
    exact ⟨nofun, fun r hr => ⟨(Host.Outcome.refused.inj hr).symm, hcmd, hin⟩⟩

end Sys2Proof.Machine
end

section
/-! PROOFS. The engine waits: right after power-on and with no command presented (70_reset_and_hazards.md R250), before
a command's data bytes or the host's acceptance of its digest (R254, R258); and it waits for nothing else, so the
commands of a well-framed host complete (R258). -/

namespace Sys2Proof.Machine

/-- Settles O44, by the run over the presented command words. -/
theorem framedCommandsComplete : Obligations.FramedCommandsComplete :=
  fun _ => framed_run_completes

/-- Settles O9: without a word the step is `noCommand`, which looks at data-in alone. -/
theorem stepWithoutCommand : Obligations.StepWithoutCommand := by
  intro s hcmd
  rw [step_of_no_command hcmd]
  exact ⟨noCommand_of_dataIn_eq_nil, noCommand_of_dataIn_ne_nil⟩

/-- Settles O11: NEWS and WRITE take their bytes before any other check, and a configured SUM looks at the pin first. -/
theorem shortInputWaits : Obligations.ShortInputWaits := by
  refine ⟨fun s w len hshort => ?news, fun s len hshort => ?write, fun s hcfg hready => ?sum⟩
  case news => rw [exec, execNews, withData_of_lt hshort]
  case write => rw [exec, execWrite, withData_of_lt hshort]
  case sum => rw [exec, execSum, whenConfigured_true hcfg, whenOutReady_false hready]

/-- Settles O39: the machine after reset has empty ports, so its step is that of no command, and the power-on event
replaces the engine only. -/
theorem powerOnIsUnconfigured : Obligations.PowerOnIsUnconfigured := by
  have hwaits : step State.reset = .next State.reset := (stepWithoutCommand State.reset rfl).1 rfl
  exact ⟨rfl, rfl, rfl, rfl, hwaits, fun _ => ⟨rfl, rfl, rfl, rfl, rfl, rfl⟩⟩

end Sys2Proof.Machine
end

section
/-! PROOFS. NEW and NEWS with 16 zero bytes open the same session (41_stream.md R155, R156): zero bytes are the salt 0,
and a fresh session is determined by its width and its salt. -/

namespace Sys2Proof.Machine

theorem saltOfBytes_replicate_zero : saltOfBytes (List.replicate 16 0x00) = Vector.replicate 4 0 := by decide

theorem exec_new_opens (w : Width) (s : State) :
    ∃ t : State, exec (.new w) s = .next t ∧ t.eng.IsFresh w (Vector.replicate 4 0) :=
  ⟨_, rfl, openSession_isFresh w _ s⟩

/-- Settles O13: both commands open a fresh session with the width `w` and the salt 0. -/
theorem newIsNewsWithZeroSalt : Obligations.NewIsNewsWithZeroSalt := by
  intro w s rest hin
  obtain ⟨t, hnew, ht⟩ := exec_new_opens w s
  obtain ⟨u, hnews, hu, -⟩ := exec_news_opens w List.length_replicate hin
  rw [saltOfBytes_replicate_zero] at hu
  exact ⟨t, u, hnew, hnews, ht.cfg_eq.trans hu.cfg_eq.symm, (ht.sameOpenSession hu).same⟩

end Sys2Proof.Machine
end
